-- ==== Sys2Proof/Word.lean ====
section
/-! DEFINITION. The words of the block: a binary32 value as its 32-bit pattern (R12), a 64-bit command word (R70),
a byte of a transport (R51), and the binary32 constants the spec's rules name. -/

namespace Sys2Proof

/-- The 32-bit pattern of a binary32 value; `bits32` and `f32of` of R12 are the identity on it. -/
abbrev F32 := BitVec 32

/-- One command word (R70, R71). -/
abbrev Cmd := BitVec 64

/-- One byte of a transport that carries words as bytes (R51). -/
abbrev Byte := BitVec 8

/-- +0.0 (R105). -/
def plusZero : F32 := 0x00000000#32

/-- -0.0. -/
def minusZero : F32 := 0x80000000#32

/-- 0.5. -/
def half : F32 := 0x3F000000#32

/-- 1.0. -/
def one : F32 := 0x3F800000#32

/-- 2.0. -/
def two : F32 := 0x40000000#32

/-- +Inf. -/
def plusInf : F32 := 0x7F800000#32

/-- -Inf. -/
def minusInf : F32 := 0xFF800000#32

/-- The quiet NaN the assembler's `nan` stands for (R78), and the pattern an arithmetic NaN has inside the model
(DESIGN CHOICE, safe: log entry 7; no NaN is stored or output, R113). -/
def quietNaN : F32 := 0x7FC00000#32

end Sys2Proof
end

