-- ==== Sys2Proof/Config.lean ====
section
/-! DEFINITION. The configuration of one instance (R7, R8, R10, R33), fixed at construction, and the free values of
the model: constants with no body, of which no proof can see a value. -/

namespace Sys2Proof

/-- SANITIZE_MODE (R106). -/
inductive SanitizeMode where
  /-- If any of the three values is non-finite, all three become +0.0 (the default). -/
  | allOnAny
  /-- Each non-finite value becomes +0.0, the finite ones are kept. -/
  | perVariable
  deriving DecidableEq, Repr

/-- DENORMAL_MODE (R16). -/
inductive DenormalMode where
  /-- Gradual underflow (the default). -/
  | ieee
  /-- Subnormal operands and results of an operation are zeros of the same sign. -/
  | ftzDaz
  deriving DecidableEq, Repr

/-- The choice of a numeric configuration function EXPMAP or COEF (R10, R124, R125). -/
inductive NumericFn where
  /-- The reference definition, which a model takes unless configured otherwise (R124, R125). -/
  | reference
  /-- Another function, named by a number, of which only the named properties of R124 or R125 are known. -/
  | configured (k : Nat)
  deriving DecidableEq, Repr

/-- The read-only configuration (R33). -/
structure Config where
  /-- SAMPLE_RATE in hertz (R7). -/
  sampleRate : F32
  /-- F_MIN (R8). -/
  fMin : F32
  /-- F_MAX (R8). -/
  fMax : F32
  /-- Q_MIN (R8). -/
  qMin : F32
  /-- Q_MAX (R8). -/
  qMax : F32
  /-- F_CLAMP (R8). -/
  fClamp : F32
  /-- DAMP_FLOOR (R8). -/
  dampFloor : F32
  /-- SHAPE_SPLIT (R8); a valid configuration holds 0.5. -/
  shapeSplit : F32
  /-- SANITIZE_MODE (R106). -/
  sanitizeMode : SanitizeMode
  /-- DENORMAL_MODE (R16). -/
  denormalMode : DenormalMode
  /-- EXPMAP (R124). -/
  expmap : NumericFn
  /-- COEF (R125). -/
  coef : NumericFn
  /-- FREQ_RESET (R27). -/
  freqReset : F32
  /-- Q_RESET (R27). -/
  qReset : F32
  /-- SHAPE_RESET (R27). -/
  shapeReset : F32
  deriving DecidableEq, Repr

/-- The configuration of `State.reset`: the defaults of R8, R10, R16 and R106. The spec leaves SAMPLE_RATE and the
three power-on parameters OPEN (R7, R27): 44100 Hz and +0.0 here are DESIGN CHOICES (unsafe: log entries 4 and 5). -/
def Config.default : Config where
  sampleRate := 0x472C4400#32
  fMin := 0x41A00000#32
  fMax := 0x469C4000#32
  qMin := 0x3F000000#32
  qMax := 0x41A00000#32
  fClamp := 0x3F800000#32
  dampFloor := 0x3C23D70A#32
  shapeSplit := 0x3F000000#32
  sanitizeMode := .allOnAny
  denormalMode := .ieee
  expmap := .reference
  coef := .reference
  freqReset := 0x00000000#32
  qReset := 0x00000000#32
  shapeReset := 0x00000000#32

/-- FREE VALUE: the raw function behind the configured EXPMAP number `k`, applied to `lo`, `hi`, `p` (R124; log entry 12). -/
opaque Config.freeExpmap : Nat → F32 → F32 → F32 → F32

/-- FREE VALUE: the raw function behind the configured COEF number `k`, applied to `fhz`, `sr` (R125; log entry 12). -/
opaque Config.freeCoef : Nat → F32 → F32 → F32

/-- FREE VALUE: EXPMAP outside the operands R124 defines it on, which no valid configuration reaches (log entry 13). -/
opaque Config.unstatedExpmap : F32 → F32 → F32 → F32

/-- FREE VALUE: COEF outside the operands R125 defines it on, which no valid configuration reaches (log entry 13). -/
opaque Config.unstatedCoef : F32 → F32 → F32

end Sys2Proof
end

