-- ==== Sys2Proof/Syntax.lean ====
section
/-! DEFINITION. The commands of the block, one constructor per row of the opcode table (R73). -/

namespace Sys2Proof

/-- A legal command (R73, R74). Every operand is the raw binary32 pattern of the DATA field, since every pattern is a
legal operand (R72). `reset` keeps the DATA bits it ignores (R75; DESIGN CHOICE, log entry 16), so that the syntax drops no bit of the word. -/
inductive Instr where
  /-- PROCESS, OP 0x01: process the input sample `x` (R100). -/
  | process (x : F32)
  /-- SETFREQ, OP 0x02: write the normalized frequency `p` (R123). -/
  | setfreq (p : F32)
  /-- SETQ, OP 0x03: write the normalized Q `p` (R127). -/
  | setq (p : F32)
  /-- SETSHAPE, OP 0x04: write the normalized shape `p` (R129). -/
  | setshape (p : F32)
  /-- RESET, OP 0x05: zero the integrators; `data` is ignored (R140, R75). -/
  | reset (data : F32)
  deriving DecidableEq, Repr

end Sys2Proof
end

