-- ==== Sys2Proof/WellFormed.lean ====
section
/-! DEFINITION. What the host is asked to keep: a command as software should write it (R75), a legal command word (R74),
and a valid configuration (R7, R8, R10, R27). None of it is assumed by the machine: it runs on every command and word. -/

namespace Sys2Proof

/-- Every operand pattern is legal (R72); of RESET, software should write the ignored DATA as zero (R75). -/
def Instr.wellFormed : Instr → Bool
  | .process _ => true
  | .setfreq _ => true
  | .setq _ => true
  | .setshape _ => true
  | .reset data => data = 0#32

/-- A command word is legal iff its bits 31:8 are zero and its bits 7:0 are one of the five operation codes (R74). -/
def legalWord (w : Cmd) : Bool :=
  w.toNat / 2 ^ 8 % 2 ^ 24 = 0 && 1 ≤ w.toNat % 2 ^ 8 && w.toNat % 2 ^ 8 ≤ 5

/-- A pattern whose value is finite and strictly positive: sign 0, not zero, exponent field below 255. -/
def positivePattern (a : F32) : Bool := 0 < a.toNat && a.toNat < 0x7F800000

/-- A pattern whose value is in [+0.0, 1.0]. -/
def unitPattern (a : F32) : Bool := a.toNat ≤ 0x3F800000

/-- A valid configuration (R7, R8, R27). On positive finite patterns the order of values is the order of the words. -/
def Config.valid (c : Config) : Bool :=
  positivePattern c.sampleRate &&
  positivePattern c.fMin && positivePattern c.fMax && c.fMin.toNat ≤ c.fMax.toNat &&
  positivePattern c.qMin && positivePattern c.qMax && c.qMin.toNat ≤ c.qMax.toNat &&
  positivePattern c.fClamp && positivePattern c.dampFloor &&
  c.shapeSplit = half &&
  unitPattern c.freqReset && unitPattern c.qReset && unitPattern c.shapeReset

end Sys2Proof
end

