-- ==== Sys2Proof/Decode.lean ====
section
/-! DEFINITION. The command format (R70 to R72), the decoder (R73, R74), total and rejecting by name, the encoder
(R71, R78), and the bytes of a word on a byte transport (R51). The decoder reads no state (R76). -/

namespace Sys2Proof

/-- DATA, bits 63:32 (R71). -/
def dataField (w : Cmd) : F32 := w.extractLsb' 32 32

/-- RSV, bits 31:8 (R71). -/
def rsvField (w : Cmd) : BitVec 24 := w.extractLsb' 8 24

/-- OP, bits 7:0 (R71). -/
def opField (w : Cmd) : BitVec 8 := w.extractLsb' 0 8

/-- The word with these three fields (R71). -/
def cmdWord (data : F32) (rsv : BitVec 24) (op : BitVec 8) : Cmd := data ++ (rsv ++ op)

/-- Why a word, or a run of bytes, is no command. -/
inductive DecodeError where
  /-- RSV is not zero (R74, R75). -/
  | reservedNotZero (rsv : BitVec 24)
  /-- OP is 0x00 or 0x06 to 0xFF (R73, R75). -/
  | reservedOpcode (op : BitVec 8)
  /-- Fewer than eight bytes: a transport has not delivered a command yet (R52). -/
  | incompleteWord
  deriving DecidableEq, Repr

/-- The command an operation code names, with its operand (R73). -/
def decodeOp (op : BitVec 8) (data : F32) : Except DecodeError Instr :=
  if op = 0x01#8 then .ok (.process data)
  else if op = 0x02#8 then .ok (.setfreq data)
  else if op = 0x03#8 then .ok (.setq data)
  else if op = 0x04#8 then .ok (.setshape data)
  else if op = 0x05#8 then .ok (.reset data)
  else .error (.reservedOpcode op)

/-- Decode a command word (R74): total, each word exactly one of the five commands or illegal. -/
def decode (w : Cmd) : Except DecodeError Instr :=
  if rsvField w = 0#24 then decodeOp (opField w) (dataField w) else .error (.reservedNotZero (rsvField w))

/-- The operation code of a command (R73). -/
def opcodeOf : Instr → BitVec 8
  | .process _ => 0x01#8
  | .setfreq _ => 0x02#8
  | .setq _ => 0x03#8
  | .setshape _ => 0x04#8
  | .reset _ => 0x05#8

/-- The DATA field of a command (R71, R72). -/
def operandOf : Instr → F32
  | .process x => x
  | .setfreq p => p
  | .setq p => p
  | .setshape p => p
  | .reset data => data

/-- The command word of an instruction: `{DATA, 0x000000, OP}` (R71, R78). -/
def encode (i : Instr) : Cmd := cmdWord (operandOf i) 0#24 (opcodeOf i)

/-- The eight bytes of a command word on a byte transport, byte k carrying bits 8k+7:8k (R51). -/
def cmdBytes (w : Cmd) : List Byte :=
  [w.extractLsb' 0 8, w.extractLsb' 8 8, w.extractLsb' 16 8, w.extractLsb' 24 8,
    w.extractLsb' 32 8, w.extractLsb' 40 8, w.extractLsb' 48 8, w.extractLsb' 56 8]

/-- The four bytes of a response word on a byte transport, byte k carrying bits 8k+7:8k (R51). -/
def responseBytes (r : F32) : List Byte :=
  [r.extractLsb' 0 8, r.extractLsb' 8 8, r.extractLsb' 16 8, r.extractLsb' 24 8]

/-- The word eight transport bytes carry, the first byte the least significant (R51). -/
def cmdOfBytes (b0 b1 b2 b3 b4 b5 b6 b7 : Byte) : Cmd :=
  b7 ++ (b6 ++ (b5 ++ (b4 ++ (b3 ++ (b2 ++ (b1 ++ b0))))))

/-- Decode the front of a run of transport bytes: the command and the bytes after it (R51, R52). -/
def decodeBytes : List Byte → Except DecodeError (Instr × List Byte)
  | b0 :: b1 :: b2 :: b3 :: b4 :: b5 :: b6 :: b7 :: rest =>
    match decode (cmdOfBytes b0 b1 b2 b3 b4 b5 b6 b7) with
    | .ok i => .ok (i, rest)
    | .error e => .error e
  | _ => .error .incompleteWord

/-- The host's question: the instruction read from a word whose low `nbits` bits are `w`'s, all others zero. -/
def decodeTableWord (nbits w : Nat) : Option Instr :=
  match decode (BitVec.ofNat 64 (w % 2 ^ nbits)) with
  | .ok i => some i
  | .error _ => none

end Sys2Proof
end

