-- ==== Sys2Proof/Machine/Binary32.lean ====
section
/-! DEFINITION. Binary32 values and the arithmetic of R13 and R16: fields, tests, comparisons, the one rounding function,
and + - * / with each operation rounded on its own, to nearest, ties to even. The content of the operations is IEEE 754's
(R13; PRESUMED, log entry 18). -/

namespace Sys2Proof.Machine

/-- The sign bit. -/
def fsign (a : F32) : Bool := a.toNat / 2 ^ 31 = 1

/-- The 31 bits below the sign. -/
def fmag (a : F32) : Nat := a.toNat % 2 ^ 31

/-- NaN, any payload (R12, R122). -/
def isNaN (a : F32) : Bool := 0x7F800000 < fmag a

/-- +Inf or -Inf. -/
def isInf (a : F32) : Bool := fmag a = 0x7F800000

/-- Neither a NaN nor an infinity (R12). -/
def isFinite (a : F32) : Bool := fmag a < 0x7F800000

/-- Finite, not zero, and of exponent field 0 (R16). -/
def isSubnormal (a : F32) : Bool := 0 < fmag a && fmag a < 2 ^ 23

/-- A finite magnitude counted in units of 2^-149, the least subnormal: exact, since every finite binary32 value is a
whole number of them. -/
def unitsOfMag (m : Nat) : Nat :=
  if m / 2 ^ 23 = 0 then m else (2 ^ 23 + m % 2 ^ 23) * 2 ^ (m / 2 ^ 23 - 1)

/-- |a| in units of 2^-149, for a finite `a`. -/
def units (a : F32) : Nat := unitsOfMag (fmag a)

/-- The finite value `a` in units of 2^-149. -/
def signedUnits (a : F32) : Int := if fsign a then -(units a : Int) else (units a : Int)

/-- The natural number nearest to `num / den`, ties to even. -/
def nearestEven (num den : Nat) : Nat :=
  if 2 * (num % den) < den then num / den
  else if den < 2 * (num % den) then num / den + 1
  else num / den + num / den % 2

/-- How many bits above 24 the whole part of `num / den` has: the binary exponent of the rounding quantum, in units. -/
def quantumLog (num den : Nat) : Nat := (num / den).log2 - 23

/-- `round32` of the exact non-negative value `num / den` units (R13): the 31-bit magnitude, to nearest, ties to even;
beyond the largest finite value it is the magnitude of infinity. -/
def roundMag (num den : Nat) : Nat :=
  min (nearestEven num (den * 2 ^ quantumLog num den) + quantumLog num den * 2 ^ 23) 0x7F800000

/-- A word from a sign and a 31-bit magnitude. -/
def pack (sign : Bool) (mag : Nat) : F32 := BitVec.ofNat 32 (if sign then 2 ^ 31 + mag else mag)

/-- `a` with its sign bit flipped. -/
def fneg (a : F32) : F32 := pack (!fsign a) (fmag a)

/-- IEEE 754 binary32 addition (R13). -/
def add32 (a b : F32) : F32 :=
  if isNaN a || isNaN b then quietNaN
  else if isInf a then (if isInf b && (fsign a != fsign b) then quietNaN else a)
  else if isInf b then b
  else if signedUnits a + signedUnits b = 0 then (if fsign a && fsign b then minusZero else plusZero)
  else pack (signedUnits a + signedUnits b < 0) (roundMag (signedUnits a + signedUnits b).natAbs 1)

/-- IEEE 754 binary32 subtraction (R13). -/
def sub32 (a b : F32) : F32 := add32 a (fneg b)

/-- IEEE 754 binary32 multiplication (R13). -/
def mul32 (a b : F32) : F32 :=
  if isNaN a || isNaN b then quietNaN
  else if isInf a || isInf b then
    (if fmag a = 0 || fmag b = 0 then quietNaN else pack (fsign a != fsign b) 0x7F800000)
  else pack (fsign a != fsign b) (roundMag (units a * units b) (2 ^ 149))

/-- IEEE 754 binary32 division (R13). -/
def div32 (a b : F32) : F32 :=
  if isNaN a || isNaN b then quietNaN
  else if isInf a then (if isInf b then quietNaN else pack (fsign a != fsign b) 0x7F800000)
  else if isInf b then pack (fsign a != fsign b) 0
  else if fmag b = 0 then (if fmag a = 0 then quietNaN else pack (fsign a != fsign b) 0x7F800000)
  else pack (fsign a != fsign b) (roundMag (units a * 2 ^ 149) (units b))

/-- A subnormal read as, or replaced by, a zero of the same sign when DENORMAL_MODE is FTZ_DAZ (R16). -/
def flushSubnormal (m : DenormalMode) (a : F32) : F32 :=
  match m with
  | .ieee => a
  | .ftzDaz => if isSubnormal a then pack (fsign a) 0 else a

/-- A binary32 operation under DENORMAL_MODE: operands read and the rounded result replaced as R16 says
(DEDUCED: flushing looks at the rounded result, log entry 9). -/
def underMode (m : DenormalMode) (op : F32 → F32 → F32) (a b : F32) : F32 :=
  flushSubnormal m (op (flushSubnormal m a) (flushSubnormal m b))

/-- `a + b` (R13, R16). -/
def fadd (m : DenormalMode) (a b : F32) : F32 := underMode m add32 a b

/-- `a - b` (R13, R16). -/
def fsub (m : DenormalMode) (a b : F32) : F32 := underMode m sub32 a b

/-- `a * b` (R13, R16). -/
def fmul (m : DenormalMode) (a b : F32) : F32 := underMode m mul32 a b

/-- `a / b` (R13, R16). -/
def fdiv (m : DenormalMode) (a b : F32) : F32 := underMode m div32 a b

/-- The order of the values as integers: both zeros are 0, infinities beyond every finite value. -/
def orderKey (a : F32) : Int := if fsign a then -(fmag a : Int) else (fmag a : Int)

/-- `a <= b`; false where either is a NaN. Comparisons do not flush subnormals (DEDUCED, log entry 8). -/
def fle (a b : F32) : Bool := !isNaN a && !isNaN b && decide (orderKey a ≤ orderKey b)

/-- `a < b`; false where either is a NaN. -/
def flt (a b : F32) : Bool := !isNaN a && !isNaN b && decide (orderKey a < orderKey b)

/-- `min(a, b)`: `a` if `a <= b` else `b` (R13). -/
def fmin (a b : F32) : F32 := if fle a b then a else b

/-- `max(a, b)`: `a` if `a >= b` else `b` (R13). -/
def fmax (a b : F32) : F32 := if fle b a then a else b

/-- A finite, strictly positive value. -/
def posFinite (a : F32) : Bool := !fsign a && decide (0 < fmag a) && isFinite a

/-- A value in [+0.0, 1.0]; -0.0 is not one (R15, R24). -/
def inUnit (a : F32) : Bool := a.toNat ≤ 0x3F800000

end Sys2Proof.Machine
end

