-- ==== Sys2Proof/Machine/Numerics.lean ====
section
/-! DEFINITION. The numeric configuration functions EXPMAP (R124) and COEF (R125), their reference definitions (an exact
real value rounded once to binary32), and the derived coefficients of R28 to R31.

The reference is a real-number expression, and `round32` of it is decided here by integers alone, for every operand. An
enclosure is two rationals with the exact real value between them; where both round to the same binary32 value, that value is
the reference's, since rounding is monotone. Where they do not, the exact value is compared with the midpoints between their
two roundings: a power of a rational, and a sine of a rational part of a turn, are algebraic numbers, so each comparison is
one of integers. -/

namespace Sys2Proof.Machine

/-- The sum of the values of the magnitudes `m` and `m + 1`, in units: twice the point between them up to which rounding goes
to `m`. -/
def midSum (m : Nat) : Nat := unitsOfMag m + unitsOfMag (m + 1)

/-- An exact value rounds to a magnitude above `m`, by how twice the value compares with `midSum m`: ties go to the even
magnitude (R13). -/
def roundsAbove (m : Nat) (twice : Ordering) : Bool := twice = .gt || (twice = .eq && m % 2 = 1)

/-- The first magnitude from `m` up, at most `fuel` further, above which the exact value does not round. -/
def roundUpFrom (above : Nat → Bool) : Nat → Nat → Nat
  | 0, m => m
  | fuel + 1, m => if above m then roundUpFrom above fuel (m + 1) else m

/-- The rounded magnitude of an exact value, from those of the two ends of an enclosure of it and the comparison of twice the
value with each `midSum`; where the ends round alike, nothing is left to compare. -/
def roundBetween (twiceValue : Nat → Ordering) (low high : Nat) : Nat :=
  roundUpFrom (fun m => roundsAbove m (twiceValue m)) (high - low) low

/-- Fractional bits of the fixed-point enclosure of a power. -/
def powBits : Nat := 256

/-- Newton's iteration for an integer square root, `k` times from `g`. -/
@[irreducible] def newtonSqrt : Nat → Nat → Nat → Nat
  | 0, _, g => g
  | k + 1, n, g => newtonSqrt k n ((g + n / g) / 2)

/-- An integer at or above the square root of `n`: twelve Newton steps, checked; the check's other branch is sound for
every `n` and never taken. -/
def sqrtAbove (n : Nat) : Nat :=
  if n ≤ (newtonSqrt 12 n (2 ^ (n.log2 / 2 + 1)) + 1) * (newtonSqrt 12 n (2 ^ (n.log2 / 2 + 1)) + 1) then
    newtonSqrt 12 n (2 ^ (n.log2 / 2 + 1)) + 1
  else n + 1

/-- An integer at or below the square root of `n`. -/
def sqrtBelow (n : Nat) : Nat := n / sqrtAbove n

/-- From `v.1 <= 2^powBits * (num/den)^t <= v.2`, the exponent's `j` fractional bits in `k`, lowest first: each bit `b` takes
the enclosure of the power of `t` to that of the power of `(b + t) / 2`, by one square root. Irreducible, so that elaboration
does not unroll it. -/
@[irreducible] def powEnclosure (num den : Nat) : Nat → Nat → Nat × Nat → Nat × Nat
  | 0, _, v => v
  | j + 1, k, v =>
    powEnclosure num den j (k / 2)
      (if k % 2 = 1 then
        (sqrtBelow (v.1 * 2 ^ powBits * num / den), sqrtAbove (v.2 * 2 ^ powBits * num / den + 1))
      else (sqrtBelow (v.1 * 2 ^ powBits), sqrtAbove (v.2 * 2 ^ powBits)))

/-- The significand of a positive finite magnitude: its value is `sigOfMag m * 2^-(scaleOfMag m)` for magnitudes below 2.0. -/
def sigOfMag (m : Nat) : Nat := if m / 2 ^ 23 = 0 then m else 2 ^ 23 + m % 2 ^ 23

/-- The number of fractional bits that go with `sigOfMag`. -/
def scaleOfMag (m : Nat) : Nat := 150 - max (m / 2 ^ 23) 1

/-- The enclosure of `2^powBits * (hi/lo)^p` for `p` strictly between 0 and 1. -/
def ratioPower (lo hi p : F32) : Nat × Nat :=
  powEnclosure (units hi) (units lo) (scaleOfMag (fmag p)) (sigOfMag (fmag p)) (2 ^ powBits, 2 ^ powBits)

/-- The rounded lower end of the enclosure of `lo * (hi/lo)^p`, a magnitude. -/
def expmapLow (lo hi p : F32) : Nat := roundMag (units lo * (ratioPower lo hi p).1) (2 ^ powBits)

/-- The rounded upper end of the enclosure of `lo * (hi/lo)^p`, a magnitude. -/
def expmapHigh (lo hi p : F32) : Nat := roundMag (units lo * (ratioPower lo hi p).2) (2 ^ powBits)

/-- The exponent `p` as a fraction in lowest terms, for `p` below 2.0. -/
def exponentOf (p : F32) : Nat × Nat :=
  (sigOfMag (fmag p) / (sigOfMag (fmag p)).gcd (2 ^ scaleOfMag (fmag p)),
    2 ^ scaleOfMag (fmag p) / (sigOfMag (fmag p)).gcd (2 ^ scaleOfMag (fmag p)))

/-- How `2 * a * (b/a)^(e.1/e.2)` compares with `c`, for `e.1 <= e.2`: both sides raised to the power `e.2`. -/
def comparePower (a b : Nat) (e : Nat × Nat) (c : Nat) : Ordering := compare (2 ^ e.2 * a ^ (e.2 - e.1) * b ^ e.1) (c ^ e.2)

/-- The magnitude of `round32(lo * (hi/lo)^p)` for `p` strictly between 0 and 1. -/
def expmapMag (lo hi p : F32) : Nat :=
  roundBetween (fun m => comparePower (units lo) (units hi) (exponentOf p) (midSum m)) (expmapLow lo hi p)
    (expmapHigh lo hi p)

/-- The reference EXPMAP, `round32(lo * (hi/lo)^p)` (R124), for `0 < lo <= hi` finite and `p` in [0, 1]. -/
def expmapRef (lo hi p : F32) : F32 :=
  if p = plusZero then lo else if p = one then hi else pack false (expmapMag lo hi p)

/-- The properties R124 names of every EXPMAP at the bounds `lo`, `hi`: the two end points, and non-decreasing in `p`
(so that the result lies in [lo, hi]). -/
abbrev ExpmapLaw (lo hi : F32) (g : F32 → F32) : Prop :=
  g plusZero = lo ∧ g one = hi ∧
    ∀ p r : F32, inUnit p = true → inUnit r = true → fle p r = true → fle (g p) (g r) = true

/-- The configured EXPMAP number `k`: the free function where it has the properties of R124, else a function that has
them, so that exactly the functions R124 admits are left open (log entry 12). -/
@[irreducible] def expmapConfigured (k : Nat) (lo hi p : F32) : F32 :=
  if ExpmapLaw lo hi (Config.freeExpmap k lo hi) then Config.freeExpmap k lo hi p
  else if p = one then hi else lo

/-- The operands R124 defines EXPMAP on. -/
def expmapDomain (lo hi p : F32) : Bool := posFinite lo && posFinite hi && fle lo hi && inUnit p

/-- EXPMAP(lo, hi, p) (R124). -/
def expmap (fn : NumericFn) (lo hi p : F32) : F32 :=
  if expmapDomain lo hi p then
    match fn with
    | .reference => expmapRef lo hi p
    | .configured k => expmapConfigured k lo hi p
  else Config.unstatedExpmap lo hi p

/-- Fractional bits of `piBelow`. -/
def piBits : Nat := 256

/-- floor(pi * 2^256). -/
def piBelow : Nat := 0x3243f6a8885a308d313198a2e03707344a4093822299f31d0082efa98ec4e6c89

/-- One level of the nested Taylor series of sin(t)/t: with `t^2 = a2/d2` and the rest of the series `v.1/v.2`,
`1 - t^2/c * (v.1/v.2)` as a numerator and a denominator. -/
def sinLevel (a2 d2 c : Nat) (v : Nat × Nat) : Nat × Nat := (c * d2 * v.2 - a2 * v.1, c * d2 * v.2)

/-- The Taylor series of sin(t)/t in nested form, exactly: with `t^2 = a2/d2`, from term `k` on and `n` levels deep,
`1 - t^2/((2k+2)(2k+3)) * (1 - ...)` as a numerator and a denominator. Irreducible, so that elaboration does not unroll it. -/
@[irreducible] def sinSeries (a2 d2 : Nat) : Nat → Nat → Nat × Nat
  | 0, _ => (1, 1)
  | n + 1, k => sinLevel a2 d2 ((2 * k + 2) * (2 * k + 3)) (sinSeries a2 d2 n (k + 1))

/-- A partial sum of the series that ends with a subtracted term: at or below sin(t)/t. -/
def sinRatioBelow (a d : Nat) : Nat × Nat := sinSeries (a * a) (d * d) 35 0

/-- A partial sum of the series that ends with an added term: at or above sin(t)/t. -/
def sinRatioAbove (a d : Nat) : Nat × Nat := sinSeries (a * a) (d * d) 34 0

/-- The fraction `r/b` of a half turn folded into [0, 1/2]: the `r'` with sin(pi*r/b) = sin(pi*r'/b), for `r <= b`. -/
def foldQuarter (r b : Nat) : Nat := if b < 2 * r then b - r else r

/-- The rounded lower end of the enclosure of `2 * sin(pi * r/b)`, `0 <= r/b <= 1/2`, a magnitude. -/
def sineLow (r b : Nat) : Nat :=
  roundMag (2 ^ 150 * (piBelow * r) * (sinRatioBelow (piBelow * r) (2 ^ piBits * b)).1)
    (2 ^ piBits * b * (sinRatioBelow (piBelow * r) (2 ^ piBits * b)).2)

/-- The rounded upper end of the enclosure of `2 * sin(pi * r/b)`: the series at the lower bound of `pi`, plus `2^-256` for
the distance to `pi` itself. -/
def sineHigh (r b : Nat) : Nat :=
  roundMag
    (2 ^ 150 * (piBelow * r * (sinRatioAbove (piBelow * r) (2 ^ piBits * b)).1 * 2 ^ piBits
      + 2 ^ piBits * b * (sinRatioAbove (piBelow * r) (2 ^ piBits * b)).2))
    (2 ^ piBits * b * (sinRatioAbove (piBelow * r) (2 ^ piBits * b)).2 * 2 ^ piBits)

/-- One step of `halfTurns`. -/
def turnStep (c : Nat) (v : Int × Int × Nat) : Int × Int × Nat :=
  (v.2.1, c * v.2.1 - 2 ^ 150 * 2 ^ 150 * v.1,
    if (if v.2.2 % 2 = 0 then v.2.1 ≤ 0 else 0 ≤ v.2.1) then v.2.2 + 1 else v.2.2)

/-- Turning `k` times by the angle `t` in (0, pi/2] with `2 * cos(t) = c / 2^150`: the multiples `2^(150*(k-1)) * sin(k*t)/sin(t)`
and `2^(150*k) * sin((k+1)*t)/sin(t)`, integers by the addition theorem, and the number of whole half turns in `k*t`, one more
wherever the sine's sign turns. Irreducible, so that elaboration does not unroll it. -/
@[irreducible] def halfTurns (c : Nat) : Nat → Int × Int × Nat
  | 0 => (0, 1, 0)
  | k + 1 => turnStep c (halfTurns c k)

/-- How `2^151 * sin(pi * r/b)` compares with `c`, for `r/b` in [0, 1/2]. The sine is the cosine of `pi * (b-2r)/(2b)`, and
`c / 2^151`, below 1, that of an angle `t`, so it is a matter of how many half turns `2b` times `t` makes. -/
def compareSine (r b c : Nat) : Ordering :=
  if 2 ^ 151 < c then .lt
  else if c = 2 ^ 151 then compare (2 * r) b
  else match compare (halfTurns c (2 * b)).2.2 (b - 2 * r) with
    | .eq => if (halfTurns c (2 * b)).1 = 0 then .eq else .gt
    | o => o

/-- The magnitude of `round32(2 * sin(pi * r/b))`, `0 <= r/b <= 1/2`. -/
def sineMag (r b : Nat) : Nat :=
  roundBetween (fun m => compareSine (r / r.gcd b) (b / r.gcd b) (midSum m)) (sineLow r b) (sineHigh r b)

/-- `fhz / sr` reduced by whole turns (an even number of half turns), in units, over `units sr`. -/
def turnPart (fhz sr : F32) : Nat := units fhz % (2 * units sr)

/-- The sine is negative in the second half turn. -/
def sineNegative (fhz sr : F32) : Bool := units sr < turnPart fhz sr

/-- The angle folded into the first quarter turn, in units over `units sr`. -/
def quarterPart (fhz sr : F32) : Nat := foldQuarter (turnPart fhz sr % units sr) (units sr)

/-- The reference COEF, `round32(2 * sin(pi * fhz / sr))` (R125), for finite `fhz >= 0` and finite `sr > 0`. An exact
zero is +0.0 and a negative value that rounds to zero is -0.0 (DEDUCED, log entry 11). -/
def coefRef (fhz sr : F32) : F32 :=
  if quarterPart fhz sr = 0 then plusZero
  else pack (sineNegative fhz sr) (sineMag (quarterPart fhz sr) (units sr))

/-- The configured COEF number `k`: the free function where its result is finite and in [-2, 2], as R125 names, else
+0.0, so that exactly the functions R125 admits are left open (log entry 12). -/
def coefConfigured (k : Nat) (fhz sr : F32) : F32 :=
  if fmag (Config.freeCoef k fhz sr) ≤ 0x40000000 then Config.freeCoef k fhz sr else plusZero

/-- The operands R125 defines COEF on. -/
def coefDomain (fhz sr : F32) : Bool := isFinite fhz && fle plusZero fhz && posFinite sr

/-- COEF(fhz, sr) (R125). -/
def coef (fn : NumericFn) (fhz sr : F32) : F32 :=
  if coefDomain fhz sr then
    match fn with
    | .reference => coefRef fhz sr
    | .configured k => coefConfigured k fhz sr
  else Config.unstatedCoef fhz sr

/-- FREQ_HZ from FREQ_N (R28). -/
@[irreducible] def deriveFreqHz (cfg : Config) (freqN : F32) : F32 := expmap cfg.expmap cfg.fMin cfg.fMax freqN

/-- F from FREQ_N (R29, R126): clamped from above only (R117). -/
@[irreducible] def deriveF (cfg : Config) (freqN : F32) : F32 :=
  fmin (coef cfg.coef (deriveFreqHz cfg freqN) cfg.sampleRate) cfg.fClamp

/-- Q from Q_N (R30). -/
@[irreducible] def deriveQ (cfg : Config) (qN : F32) : F32 := expmap cfg.expmap cfg.qMin cfg.qMax qN

/-- DAMP from Q_N (R31, R128): `1.0 / Q` is one binary32 division. -/
@[irreducible] def deriveDamp (cfg : Config) (qN : F32) : F32 :=
  fmax (fdiv cfg.denormalMode one (deriveQ cfg qN)) cfg.dampFloor

end Sys2Proof.Machine
end

