-- ==== Sys2Proof/Machine/State.lean ====
section
/-! DEFINITION. The state of one instance (R20), the two streams between it and its host (R50), the reasons a step could
stop, and the state after construction (R39, R180). -/

namespace Sys2Proof.Machine

/-- The three integrator values of one update: `low`, `band`, `high` (R101 to R106). -/
structure Signals where
  /-- The low-pass value. -/
  low : F32
  /-- The band-pass value. -/
  band : F32
  /-- The high-pass value. -/
  high : F32
  deriving DecidableEq, Repr

/-- One filter instance and the streams between it and its host. -/
structure State where
  /-- LOW, the low-pass integrator (R21). -/
  low : F32
  /-- BAND, the band-pass integrator (R22). -/
  band : F32
  /-- HIGH, the high-pass value of the most recent PROCESS (R23). -/
  high : F32
  /-- FREQ_N, the normalized frequency (R24). -/
  freqN : F32
  /-- Q_N, the normalized Q (R25). -/
  qN : F32
  /-- SHAPE, the morph control (R26). -/
  shape : F32
  /-- FREQ_HZ, the cutoff frequency (R28). -/
  freqHz : F32
  /-- F, the frequency coefficient (R29). -/
  f : F32
  /-- Q, the quality factor (R30). -/
  q : F32
  /-- DAMP, the damping term (R31). -/
  damp : F32
  /-- The read-only configuration (R20, R33). -/
  cfg : Config
  /-- The model's own field: the command words the host has delivered and the block has not executed, oldest first
  (R55; log entry 1). -/
  inbox : List Cmd
  /-- The model's own field: the bytes so far of a word in delivery over a byte transport (R51, R52; log entry 1). -/
  partialWord : List Byte
  /-- The model's own field: every response emitted, oldest first (R55, R77, R189; log entry 1). -/
  responses : List F32
  deriving DecidableEq, Repr

/-- Reasons for a fault: none. The block raises no exception and no command traps, halts or records an error
(R150, R157), so there is no constructor: nothing raises one, and that is as the spec says. -/
inductive Fault where
  deriving DecidableEq, Repr

/-- Reasons for a refusal. -/
inductive Refusal where
  /-- An instruction without a meaning would answer this from its arm of `exec`. Every instruction has one, so nothing
  raises it; it would be safe. -/
  | notModelled (mnemonic : String)
  deriving DecidableEq, Repr

/-- Power-on reset is the construction of an instance with a configuration (R180): integrators +0.0, the parameters at the
configuration's reset values, the derived registers computed from them (R39); nothing delivered and nothing answered. -/
def State.construct (cfg : Config) : State where
  low := plusZero
  band := plusZero
  high := plusZero
  freqN := cfg.freqReset
  qN := cfg.qReset
  shape := cfg.shapeReset
  freqHz := deriveFreqHz cfg cfg.freqReset
  f := deriveF cfg cfg.freqReset
  q := deriveQ cfg cfg.qReset
  damp := deriveDamp cfg cfg.qReset
  cfg := cfg
  inbox := []
  partialWord := []
  responses := []

/-- The machine right after reset: an instance constructed with `Config.default` (OPEN values: log entries 4 and 5). -/
def State.reset : State := State.construct Config.default

end Sys2Proof.Machine
end

