-- ==== Sys2Proof/Machine/Flags.lean ====
section
/-! DEFINITION. The block has no status flags, condition codes or error bits (R36, R152), so no flag is computed. The only
conditions it tests on results are the containment tests of R104 to R106 and R111, which are here. -/

namespace Sys2Proof.Machine

/-- Some of the three values is non-finite (R104, R106). -/
def anyNonFinite (v : Signals) : Bool := !isFinite v.low || !isFinite v.band || !isFinite v.high

/-- A value, or +0.0 where it is non-finite (R105, R111). -/
def contain (a : F32) : F32 := if isFinite a then a else plusZero

/-- The sanitisation of one update's values (R104 to R106). -/
def sanitize (mode : SanitizeMode) (v : Signals) : Signals :=
  match mode with
  | .allOnAny => if anyNonFinite v then ⟨plusZero, plusZero, plusZero⟩ else v
  | .perVariable => ⟨contain v.low, contain v.band, contain v.high⟩

end Sys2Proof.Machine
end

