-- ==== Sys2Proof/Machine/Operands.lean ====
section
/-! DEFINITION. The one operand form: the DATA field read as a binary32 value, as it is (R72). PROCESS uses it as given
(R116); a setter clamps it (R121) after the NaN test (R122, R156). -/

namespace Sys2Proof.Machine

/-- `clampN(p)` (R15, R121); `none` where `p` is a NaN and the write is ignored (R122). -/
def clampN (p : F32) : Option F32 :=
  if isNaN p then none
  else if fle p plusZero then some plusZero
  else if fle one p then some one
  else some p

end Sys2Proof.Machine
end

