-- ==== Sys2Proof/Machine/Ops.lean ====
section
/-! DEFINITION. The named operations over the registers and the two streams. There is no memory (R50), and there is no
operation that takes an exception or returns from one: the block has no trap entry and no trap return (R150, R157, R158). -/

namespace Sys2Proof.Machine

/-- Write the three signal registers (R107, R140). -/
def writeSignals (v : Signals) (s : State) : State := { s with low := v.low, band := v.band, high := v.high }

/-- Write FREQ_N and the registers derived from it (R123, R32). -/
def writeFreq (pn : F32) (s : State) : State :=
  { s with freqN := pn, freqHz := deriveFreqHz s.cfg pn, f := deriveF s.cfg pn }

/-- Write Q_N and the registers derived from it (R127, R32). -/
def writeQ (pn : F32) (s : State) : State :=
  { s with qN := pn, q := deriveQ s.cfg pn, damp := deriveDamp s.cfg pn }

/-- Write SHAPE (R129). -/
def writeShape (pn : F32) (s : State) : State := { s with shape := pn }

/-- A setter: nothing for a NaN operand (R122), else the write of the clamped operand (R120, R121). -/
def setParameter (write : F32 → State → State) (p : F32) (s : State) : State :=
  match clampN p with
  | none => s
  | some pn => write pn s

/-- Emit one response word (R77, R111). -/
def respond (out : F32) (s : State) : State := { s with responses := s.responses ++ [out] }

/-- `no_op`: an illegal word changes no register and emits nothing (R142, R154; log entry 14). -/
def illegalCommand (s : State) : Host.Outcome State Fault Refusal := .next s

/-- With no command delivered the block waits and its state is retained (R163, R181; log entry 2). -/
def awaitCommand (s : State) : Host.Outcome State Fault Refusal := .next s

/-- The oldest command word not yet executed, and the state without it (R55). -/
def takeCommand (s : State) : Option (Cmd × State) :=
  match s.inbox with
  | [] => none
  | w :: rest => some (w, { s with inbox := rest })

/-- The host issues one command word: it is executed after every word issued before it (R55, R164). -/
def issueCommand (w : Cmd) (s : State) : State := { s with inbox := s.inbox ++ [w] }

/-- The byte transport delivers one byte: the eighth byte of a word completes a command, fewer are none yet (R51, R52). -/
def receiveByte (b : Byte) (s : State) : State :=
  match s.partialWord with
  | [b0, b1, b2, b3, b4, b5, b6] =>
    issueCommand (cmdOfBytes b0 b1 b2 b3 b4 b5 b6 b) { s with partialWord := [] }
  | bs => { s with partialWord := bs ++ [b] }

/-- The byte transport delivers bytes, the first first (R51, R52). -/
def receiveBytes : List Byte → State → State
  | [], s => s
  | b :: bs, s => receiveBytes bs (receiveByte b s)

end Sys2Proof.Machine
end

