-- ==== Sys2Proof/Machine/Control.lean ====
section
/-! DEFINITION. RESET (R140, R141). -/

namespace Sys2Proof.Machine

/-- RESET: the integrators become +0.0 and nothing else changes (R140, R141); the DATA bits are ignored (R75). -/
def execReset (_data : F32) (s : State) : Host.Outcome State Fault Refusal :=
  .next (writeSignals ⟨plusZero, plusZero, plusZero⟩ s)

end Sys2Proof.Machine
end

