-- ==== Sys2Proof/Machine/Parameters.lean ====
section
/-! DEFINITION. The setters SETFREQ, SETQ and SETSHAPE (R120 to R131). -/

namespace Sys2Proof.Machine

/-- SETFREQ (R123). -/
def execSetfreq (p : F32) (s : State) : Host.Outcome State Fault Refusal := .next (setParameter writeFreq p s)

/-- SETQ (R127). -/
def execSetq (p : F32) (s : State) : Host.Outcome State Fault Refusal := .next (setParameter writeQ p s)

/-- SETSHAPE (R129). -/
def execSetshape (p : F32) (s : State) : Host.Outcome State Fault Refusal := .next (setParameter writeShape p s)

end Sys2Proof.Machine
end

