-- ==== Sys2Proof/Machine/Process.lean ====
section
/-! DEFINITION. PROCESS (R100 to R117). -/

namespace Sys2Proof.Machine

/-- `low1` (R101). -/
def lowUpdate (m : DenormalMode) (f low band : F32) : F32 := fadd m low (fmul m f band)

/-- `high1` (R102): from the new `low1` and the old `band`. -/
def highUpdate (m : DenormalMode) (damp low1 band x : F32) : F32 := fsub m (fsub m x low1) (fmul m damp band)

/-- `band1` (R103): from `high1` before any sanitisation. -/
def bandUpdate (m : DenormalMode) (f band high1 : F32) : F32 := fadd m band (fmul m f high1)

/-- The three values of one update in the order the source writes them (R101 to R103), before any test (R104). -/
def svfUpdate (m : DenormalMode) (f damp low band x : F32) : Signals :=
  ⟨lowUpdate m f low band,
    bandUpdate m f band (highUpdate m damp (lowUpdate m f low band) band x),
    highUpdate m damp (lowUpdate m f low band) band x⟩

/-- `(a * (1.0 - t)) + (b * t)`, each operation binary32 (R109, R110). -/
def blend (m : DenormalMode) (a b t : F32) : F32 := fadd m (fmul m a (fsub m one t)) (fmul m b t)

/-- The morph (R108 to R110): below SHAPE_SPLIT from low to band, else from band to high. -/
def morph (m : DenormalMode) (split shape : F32) (v : Signals) : F32 :=
  if flt shape split then blend m v.low v.band (fmul m shape two)
  else blend m v.band v.high (fmul m (fsub m shape half) two)

/-- The sanitised values PROCESS stores for the input `x` (R101 to R107). -/
def processSignals (x : F32) (s : State) : Signals :=
  sanitize s.cfg.sanitizeMode (svfUpdate s.cfg.denormalMode s.f s.damp s.low s.band x)

/-- The response of PROCESS for the input `x` (R108 to R111). -/
def processOutput (x : F32) (s : State) : F32 :=
  contain (morph s.cfg.denormalMode s.cfg.shapeSplit s.shape (processSignals x s))

/-- PROCESS (R100, R112): the input is used as given (R116); one atomic step, one response (R53, R77). -/
def execProcess (x : F32) (s : State) : Host.Outcome State Fault Refusal :=
  .next (respond (processOutput x s) (writeSignals (processSignals x s) s))

end Sys2Proof.Machine
end

