-- ==== Sys2Proof/Machine/Dispatch.lean ====
section
/-! DEFINITION. One arm per command, each a direct call of its meaning. -/

namespace Sys2Proof.Machine

def exec (i : Instr) (s : State) : Host.Outcome State Fault Refusal :=
  match i with
  | .process x => Sys2Proof.Machine.execProcess x s
  | .setfreq p => Sys2Proof.Machine.execSetfreq p s
  | .setq p => Sys2Proof.Machine.execSetq p s
  | .setshape p => Sys2Proof.Machine.execSetshape p s
  | .reset data => Sys2Proof.Machine.execReset data s

end Sys2Proof.Machine
end

