-- ==== Sys2Proof/Machine/Step.lean ====
section
/-! DEFINITION. One step of the block: the oldest delivered command is taken, decoded and executed (R55, R156). -/

namespace Sys2Proof.Machine

/-- One step: decode first, and if the word is illegal, `no_op`; else the command's rule (R156). -/
def step (s : State) : Host.Outcome State Fault Refusal :=
  match takeCommand s with
  | none => awaitCommand s
  | some (w, s1) =>
    match decode w with
    | .ok i => exec i s1
    | .error _ => illegalCommand s1

/-- `s` with a word placed as the next command the block takes: the host's delivery (log entry 3). -/
def State.withFetchWord (s : State) (nbits w : Nat) : State :=
  { s with inbox := BitVec.ofNat 64 (w % 2 ^ nbits) :: s.inbox }

end Sys2Proof.Machine
end

