-- ==== Sys2Proof/Machine/Assembler.lean ====
section
/-! DEFINITION. The assembly syntax and the pseudo-commands (R78, R79): a line of characters to the command words it stands
for. It is notation for command sequences; the block never sees it. What R78 leaves to the reader is in log entry 21. -/

namespace Sys2Proof.Machine

/-- White space between the words of a line. -/
def isBlank (c : Char) : Bool := c = ' ' || c = '\t'

/-- The line up to its comment (R78). -/
def dropComment : List Char → List Char
  | [] => []
  | c :: cs => if c = ';' then [] else c :: dropComment cs

/-- The words of a line; `word` is the word being read. -/
def asmWords : List Char → List Char → List (List Char)
  | [], word => if word = [] then [] else [word]
  | c :: cs, word =>
    if isBlank c then (if word = [] then asmWords cs [] else word :: asmWords cs [])
    else asmWords cs (word ++ [c])

/-- A decimal digit's value. -/
def digitValue (c : Char) : Option Nat := if '0'.toNat ≤ c.toNat && c.toNat ≤ '9'.toNat then some (c.toNat - '0'.toNat) else none

/-- A hexadecimal digit's value, of either case. -/
def hexValue (c : Char) : Option Nat :=
  if 'a'.toNat ≤ c.toNat && c.toNat ≤ 'f'.toNat then some (c.toNat - 'a'.toNat + 10)
  else if 'A'.toNat ≤ c.toNat && c.toNat ≤ 'F'.toNat then some (c.toNat - 'A'.toNat + 10)
  else digitValue c

/-- The number a run of hexadecimal digits stands for, on top of `acc`. -/
def hexNumber : List Char → Nat → Option Nat
  | [], acc => some acc
  | c :: cs, acc =>
    match hexValue c with
    | some v => hexNumber cs (acc * 16 + v)
    | none => none

/-- A hexadecimal literal of exactly `n` digits: 8 for a binary32 pattern, 16 for a command word (R78). -/
def hexLiteral (n : Nat) : List Char → Option Nat
  | '0' :: 'x' :: ds => if ds.length = n then hexNumber ds 0 else none
  | _ => none

/-- Leading decimal digits: their number on top of `acc`, how many, and the characters after them. -/
def leadingDigits : List Char → Nat → Nat → Nat × Nat × List Char
  | [], acc, n => (acc, n, [])
  | c :: cs, acc, n =>
    match digitValue c with
    | some v => leadingDigits cs (acc * 10 + v) (n + 1)
    | none => (acc, n, c :: cs)

/-- A whole word of decimal digits. -/
def natLiteral (cs : List Char) : Option Nat :=
  match leadingDigits cs 0 0 with
  | (v, n, []) => if n = 0 then none else some v
  | _ => none

/-- A leading sign: whether it is a minus, and the characters after it. -/
def leadingSign : List Char → Bool × List Char
  | '-' :: cs => (true, cs)
  | '+' :: cs => (false, cs)
  | cs => (false, cs)

/-- The exponent part of a decimal literal; nothing is exponent 0. -/
def exponentPart : List Char → Option Int
  | [] => some 0
  | c :: cs =>
    if c = 'e' || c = 'E' then
      match natLiteral (leadingSign cs).2 with
      | some v => some (if (leadingSign cs).1 then -(v : Int) else (v : Int))
      | none => none
    else none

/-- `round32` of `digits * 10^e`, with a sign (R13, R78). -/
def decimalBits (neg : Bool) (digits : Nat) (e : Int) : F32 :=
  if 0 ≤ e then pack neg (roundMag (digits * 10 ^ e.toNat * 2 ^ 149) 1)
  else pack neg (roundMag (digits * 2 ^ 149) (10 ^ (-e).toNat))

/-- An unsigned decimal literal (R78). -/
def decimalLiteral (neg : Bool) (cs : List Char) : Option F32 :=
  match leadingDigits cs 0 0 with
  | (v, n, '.' :: rest) =>
    match leadingDigits rest v 0 with
    | (v', k, rest') =>
      if n + k = 0 then none
      else match exponentPart rest' with
        | some e => some (decimalBits neg v' (e - k))
        | none => none
  | (v, n, rest) =>
    if n = 0 then none
    else match exponentPart rest with
      | some e => some (decimalBits neg v e)
      | none => none

/-- An `<f32>` operand (R78). -/
def f32Literal (cs : List Char) : Option F32 :=
  if cs = ['+', 'i', 'n', 'f'] then some plusInf
  else if cs = ['-', 'i', 'n', 'f'] then some minusInf
  else if cs = ['n', 'a', 'n'] then some quietNaN
  else match hexLiteral 8 cs with
    | some v => some (BitVec.ofNat 32 v)
    | none => decimalLiteral (leadingSign cs).1 (leadingSign cs).2

/-- The command with an operand that a lower-case mnemonic names (R78). -/
def operandCommand (name : List Char) (x : F32) : Option Instr :=
  if name = ['p', 'r', 'o', 'c', 'e', 's', 's'] then some (.process x)
  else if name = ['s', 'e', 't', 'f', 'r', 'e', 'q'] then some (.setfreq x)
  else if name = ['s', 'e', 't', 'q'] then some (.setq x)
  else if name = ['s', 'e', 't', 's', 'h', 'a', 'p', 'e'] then some (.setshape x)
  else none

/-- The command, or pseudo-command, without an operand that a lower-case mnemonic names (R78, R79). -/
def bareCommand (name : List Char) : Option Instr :=
  if name = ['r', 'e', 's', 'e', 't'] then some (.reset 0#32)
  else if name = ['n', 'o', 't', 'e', 'o', 'n'] then some (.reset 0#32)
  else if name = ['l', 'o', 'w', 'p', 'a', 's', 's'] then some (.setshape plusZero)
  else if name = ['b', 'a', 'n', 'd', 'p', 'a', 's', 's'] then some (.setshape half)
  else if name = ['h', 'i', 'g', 'h', 'p', 'a', 's', 's'] then some (.setshape one)
  else none

/-- The words of a line with a lower-case mnemonic and one operand (R78, R79). -/
def assembleOperand (name operand : List Char) : Option (List Cmd) :=
  if name = ['.', 'w', 'o', 'r', 'd', '6', '4'] then
    match hexLiteral 16 operand with
    | some v => some [BitVec.ofNat 64 v]
    | none => none
  else if name = ['s', 'i', 'l', 'e', 'n', 'c', 'e'] then
    match natLiteral operand with
    | some n => some (List.replicate n (encode (.process plusZero)))
    | none => none
  else
    match f32Literal operand with
    | some x =>
      match operandCommand name x with
      | some i => some [encode i]
      | none => none
    | none => none

/-- The command words a line's words stand for; `N * <command>` is the command N times (R78, R79). -/
def assembleWords : List (List Char) → Option (List Cmd)
  | [] => some []
  | [name] =>
    match bareCommand (name.map Char.toLower) with
    | some i => some [encode i]
    | none => none
  | [name, operand] => assembleOperand (name.map Char.toLower) operand
  | count :: star :: command =>
    if star = ['*'] then
      match natLiteral count, assembleWords command with
      | some n, some ws => some (List.replicate n ws).flatten
      | _, _ => none
    else none

/-- The command words one line of assembly stands for, `none` where it is not one (R78, R79). -/
def assembleLine (line : List Char) : Option (List Cmd) := assembleWords (asmWords (dropComment line) [])

end Sys2Proof.Machine
end

