-- ==== Sys2Proof/Machine/HostSide.lean ====
section
/-! DEFINITION. What the host sends: the commands of a note's life (R182), the boot sequence (R183), and the commands a
sample costs (R164, R185). The block does not depend on any of it; a host that follows the spec issues these words. -/

namespace Sys2Proof.Machine

/-- What happens to the voice that owns the filter (R182). -/
inductive VoiceEvent where
  /-- A note starts: also a retrigger, and a stolen voice. -/
  | noteOn
  /-- `allNotesOff` force-stops the voice. -/
  | forceStop
  /-- A note is released: nothing is sent to the filter. -/
  | noteOff
  deriving DecidableEq, Repr

/-- The commands the host issues on an event (R182). -/
def voiceEventCommands : VoiceEvent → List Instr
  | .noteOn => [.reset 0#32]
  | .forceStop => [.reset 0#32]
  | .noteOff => []

/-- The commands before the first PROCESS of which a claim depends on the output, in the order R183 lists them; RESET is
optional there, since power-on leaves the integrators at +0.0. -/
def bootCommands (freq q shape : F32) : List Instr := [.setfreq freq, .setq q, .setshape shape]

/-- The host issues commands, the first first (R55, R164). -/
def issueAll : List Instr → State → State
  | [], s => s
  | i :: is, s => issueAll is (issueCommand (encode i) s)

end Sys2Proof.Machine
end

