-- ==== Sys2Proof/Machine/Instances.lean ====
section
/-! DEFINITION. Several instances: each owns its state and its command stream exclusively (R38, R60, R162). -/

namespace Sys2Proof.Machine

/-- Instance `k` of a system of instances takes one step; every other instance, and a system without an instance `k`, stays
as it is (R60, R162). -/
def stepInstance (k : Nat) (sys : List State) : List State :=
  match sys[k]? with
  | none => sys
  | some s =>
    match step s with
    | .next t => sys.set k t
    | .fault _ => sys
    | .refused _ => sys

end Sys2Proof.Machine
end

