-- ==== Sys2Proof/Safety.lean ====
section
/-! DEFINITION. The terms claims are stated in: the rational value of a finite word, correct rounding of a real number
(R13), the invariant of an instance between commands (R21 to R32), and the effect of one command word (R55). -/

namespace Sys2Proof

/-- The value of a finite binary32 word, exactly (R12). -/
def valueOf (a : F32) : ℚ := (Machine.signedUnits a : ℚ) / 2 ^ 149

/-- `w` is `round32(x)`, the real number `x` rounded once to binary32, to nearest, ties to even (R13): the sign is that of
`x` where `x` is not zero; below the overflow threshold `w` is finite and no finite word is nearer, and one equally near
with another value leaves `w` even; from the threshold on, half a quantum above the largest finite value, `w` is infinite. -/
def RoundsTo (x : ℝ) (w : F32) : Prop :=
  (x < 0 → Machine.fsign w = true) ∧ (0 < x → Machine.fsign w = false) ∧
  (|x| < 2 ^ 128 - 2 ^ 103 →
    Machine.isFinite w = true ∧
    ∀ v : F32, Machine.isFinite v = true →
      |x - (valueOf w : ℝ)| < |x - (valueOf v : ℝ)| ∨
      (|x - (valueOf w : ℝ)| = |x - (valueOf v : ℝ)| ∧ (valueOf v = valueOf w ∨ w.toNat % 2 = 0))) ∧
  (2 ^ 128 - 2 ^ 103 ≤ |x| → Machine.isInf w = true)

/-- The registers a host can rely on between commands, for a validly configured instance: finite integrators (R21 to R23),
parameters in [+0.0, 1.0] (R24 to R26), derived registers equal to their functions of the parameters and the
configuration (R32); and fewer than eight bytes of an unfinished word (R52). -/
def Inv (s : Machine.State) : Prop :=
  s.cfg.valid = true ∧
  Machine.isFinite s.low = true ∧ Machine.isFinite s.band = true ∧ Machine.isFinite s.high = true ∧
  Machine.inUnit s.freqN = true ∧ Machine.inUnit s.qN = true ∧ Machine.inUnit s.shape = true ∧
  s.freqHz = Machine.deriveFreqHz s.cfg s.freqN ∧ s.f = Machine.deriveF s.cfg s.freqN ∧
  s.q = Machine.deriveQ s.cfg s.qN ∧ s.damp = Machine.deriveDamp s.cfg s.qN ∧
  s.partialWord.length < 8

/-- The effect of one command word on the registers and the responses (R55, R142). -/
def commandEffect (s : Machine.State) (w : Cmd) : Machine.State :=
  match decode w with
  | .ok i =>
    match Machine.exec i s with
    | .next t => t
    | .fault _ => s
    | .refused _ => s
  | .error _ => s

end Sys2Proof
end

