-- ==== Sys2Proof/Certificates/Slice0/Obligations.lean ====
section
/-! DEFINITION. The statements for the provers, each from the rules its docstring names. -/

open Sys2Proof Sys2Proof.Machine

/-- For every configuration, the constructed instance has LOW, BAND, HIGH +0.0; FREQ_N, Q_N, SHAPE at the configuration's
reset values; FREQ_HZ, F, Q, DAMP computed from them by the setters' functions; and State.reset is the construction
with its own configuration. (R180) -/
def Obligations.ConstructionSetsPowerOnState : Prop :=
  ∀ cfg : Config,
    let s := State.construct cfg
    s.low = plusZero ∧ s.band = plusZero ∧ s.high = plusZero ∧
    s.freqN = cfg.freqReset ∧ s.qN = cfg.qReset ∧ s.shape = cfg.shapeReset ∧
    s.freqHz = expmap cfg.expmap cfg.fMin cfg.fMax cfg.freqReset ∧
    s.f = fmin (coef cfg.coef s.freqHz cfg.sampleRate) cfg.fClamp ∧
    s.q = expmap cfg.expmap cfg.qMin cfg.qMax cfg.qReset ∧
    s.damp = fmax (fdiv cfg.denormalMode one s.q) cfg.dampFloor ∧
    s.cfg = cfg ∧ State.reset = State.construct State.reset.cfg

/-- State.reset's configuration has F_MIN, F_MAX, Q_MIN, Q_MAX, F_CLAMP, DAMP_FLOOR and SHAPE_SPLIT at the bit patterns of
the table of R8, SANITIZE_MODE ALL_ON_ANY, DENORMAL_MODE IEEE and the reference EXPMAP and COEF (R10), and is valid.
SAMPLE_RATE and the three reset parameters are the model's choice (log entries 4 and 5) and no value of theirs is
stated. (00_scope.md R8, 00_scope.md R10, 00_scope.md R16, 40_process.md R106) -/
def Obligations.ResetConfigurationHoldsDefaults : Prop :=
  State.reset.cfg.fMin = 0x41A00000#32 ∧ State.reset.cfg.fMax = 0x469C4000#32 ∧
  State.reset.cfg.qMin = 0x3F000000#32 ∧ State.reset.cfg.qMax = 0x41A00000#32 ∧
  State.reset.cfg.fClamp = 0x3F800000#32 ∧ State.reset.cfg.dampFloor = 0x3C23D70A#32 ∧
  State.reset.cfg.shapeSplit = 0x3F000000#32 ∧ State.reset.cfg.sanitizeMode = .allOnAny ∧
  State.reset.cfg.denormalMode = .ieee ∧ State.reset.cfg.expmap = .reference ∧
  State.reset.cfg.coef = .reference ∧ State.reset.cfg.valid = true

/-- For every valid configuration the constructed instance meets Inv (finite integrators, parameters in [+0.0, 1.0],
derived registers equal to their functions, fewer than eight transport bytes), and so does State.reset. (10_state.md
R32, 10_state.md R39, 70_reset_and_hazards.md R180) -/
def Obligations.ConstructionMeetsInvariant : Prop :=
  (∀ cfg : Config, cfg.valid = true → Inv (State.construct cfg)) ∧ Inv State.reset

/-- For every state that meets Inv (a valid configuration; LOW, BAND, HIGH finite; FREQ_N, Q_N, SHAPE in [+0.0, 1.0];
FREQ_HZ, F, Q, DAMP equal to the functions of R28 to R31 of the current FREQ_N, Q_N and configuration; fewer than
eight transport bytes), whatever word is delivered, the state after a step meets it too. (10_state.md R21, 10_state.md
R22, 10_state.md R23, 10_state.md R24, 10_state.md R25, 10_state.md R26, 10_state.md R32, 40_process.md R107,
41_parameters.md R121) -/
def Obligations.StepKeepsInvariant : Prop :=
  ∀ s t : State, Inv s → step s = .next t → Inv t

/-- After any step, whatever word is delivered and in any state, the configuration is the one before. (10_state.md R33,
00_scope.md R7) -/
def Obligations.StepKeepsConfiguration : Prop :=
  ∀ s t : State, step s = .next t → t.cfg = s.cfg

/-- In every state, PROCESS x completes and stores: with low1 = LOW + F*BAND, high1 = (x - low1) - DAMP*BAND and band1 =
BAND + F*high1, each operation one binary32 operation, under ALL_ON_ANY all three if all are finite and else three
times +0.0, under PER_VARIABLE each one if it is finite and else +0.0. What is stored is finite, which the spec
derives (its mark in R107). (40_process.md R101, 40_process.md R102, 40_process.md R103, 40_process.md R104,
40_process.md R105, 40_process.md R106, 40_process.md R107) -/
def Obligations.ProcessStoresSanitisedUpdate : Prop :=
  ∀ (x : F32) (s : State),
    let m := s.cfg.denormalMode
    let low1 := fadd m s.low (fmul m s.f s.band)
    let high1 := fsub m (fsub m x low1) (fmul m s.damp s.band)
    let band1 := fadd m s.band (fmul m s.f high1)
    ∃ t, exec (.process x) s = .next t ∧
      (s.cfg.sanitizeMode = .allOnAny →
        if isFinite low1 && isFinite band1 && isFinite high1 then
          t.low = low1 ∧ t.band = band1 ∧ t.high = high1
        else t.low = 0x00000000#32 ∧ t.band = 0x00000000#32 ∧ t.high = 0x00000000#32) ∧
      (s.cfg.sanitizeMode = .perVariable →
        t.low = (if isFinite low1 then low1 else 0x00000000#32) ∧
        t.band = (if isFinite band1 then band1 else 0x00000000#32) ∧
        t.high = (if isFinite high1 then high1 else 0x00000000#32)) ∧
      isFinite t.low = true ∧ isFinite t.band = true ∧ isFinite t.high = true

/-- In every state, PROCESS x completes and appends one response: below SHAPE_SPLIT, with t = SHAPE*2.0, low*(1.0-t) +
band*t of the stored values; else, with t = (SHAPE-0.5)*2.0, band*(1.0-t) + high*t; +0.0 in place of a non-finite
result. The response is finite. (40_process.md R108, 40_process.md R109, 40_process.md R110, 40_process.md R111,
30_encoding.md R77) -/
def Obligations.ProcessRespondsWithMorph : Prop :=
  ∀ (x : F32) (s : State), ∃ t, exec (.process x) s = .next t ∧
    let m := s.cfg.denormalMode
    let tl := fmul m s.shape 0x40000000#32
    let tu := fmul m (fsub m s.shape 0x3F000000#32) 0x40000000#32
    let out1 :=
      if flt s.shape s.cfg.shapeSplit then
        fadd m (fmul m t.low (fsub m 0x3F800000#32 tl)) (fmul m t.band tl)
      else fadd m (fmul m t.band (fsub m 0x3F800000#32 tu)) (fmul m t.high tu)
    let out := if isFinite out1 then out1 else 0x00000000#32
    t.responses = s.responses ++ [out] ∧ isFinite out = true

/-- When a command answers a next state: PROCESS leaves all but LOW, BAND, HIGH and the responses unchanged, and every
response before it; SETFREQ all but FREQ_N, FREQ_HZ, F; SETQ all but Q_N, Q, DAMP; SETSHAPE all but SHAPE; RESET all
but LOW, BAND, HIGH. The configuration, the undelivered and the delivered words are unchanged by all five.
(10_state.md R34, 41_parameters.md R120, 42_control.md R141) -/
def Obligations.CommandsWriteOnlyTheirRegisters : Prop :=
  ∀ (i : Instr) (s t : State), exec i s = .next t →
    match i with
    | .process _ =>
      t = { s with low := t.low, band := t.band, high := t.high, responses := t.responses } ∧
        s.responses <+: t.responses
    | .setfreq _ => t = { s with freqN := t.freqN, freqHz := t.freqHz, f := t.f }
    | .setq _ => t = { s with qN := t.qN, q := t.q, damp := t.damp }
    | .setshape _ => t = { s with shape := t.shape }
    | .reset _ => t = { s with low := t.low, band := t.band, high := t.high }

/-- PROCESS x answers the same next state whatever HIGH was, and so does every other command up to HIGH itself: the
outcome of any command from two states that differ only in HIGH differs at most in HIGH. (10_state.md R23,
40_process.md R102) -/
def Obligations.HighIsNeverRead : Prop :=
  ∀ (s : State) (h : F32),
    (∀ x, exec (.process x) { s with high := h } = exec (.process x) s) ∧
    (∀ (i : Instr) (t : State), exec i s = .next t →
      ∃ t', exec i { s with high := h } = .next t' ∧ { t' with high := t.high } = t)

/-- For a non-finite input x and a SHAPE in [0, 1] with the valid SHAPE_SPLIT: under ALL_ON_ANY the state becomes all +0.0
and the response is +0.0; under PER_VARIABLE BAND and HIGH become +0.0, LOW becomes low1 = LOW + F*BAND where that is
finite and else +0.0, independent of x, and the response is the morph of these three values, +0.0 in its place if it
is non-finite; so the response is finite and independent of x. Nothing else changes. (40_process.md R113,
40_process.md R116, 40_process.md R111, 60_exceptions.md R152) -/
def Obligations.NonFiniteInputIsContained : Prop :=
  ∀ (x : F32) (s : State), isFinite x = false → inUnit s.shape = true → s.cfg.shapeSplit = half →
    (s.cfg.sanitizeMode = .allOnAny →
      exec (.process x) s = .next { s with low := plusZero, band := plusZero, high := plusZero,
                                           responses := s.responses ++ [plusZero] }) ∧
    (s.cfg.sanitizeMode = .perVariable →
      let m := s.cfg.denormalMode
      let low1 := fadd m s.low (fmul m s.f s.band)
      let low2 := if isFinite low1 then low1 else plusZero
      let out1 := morph m s.cfg.shapeSplit s.shape ⟨low2, plusZero, plusZero⟩
      let out := if isFinite out1 then out1 else plusZero
      isFinite out = true ∧
      exec (.process x) s = .next { s with low := low2, band := plusZero, high := plusZero,
                                           responses := s.responses ++ [out] })

/-- Where the three values of R101 to R103 are finite, PROCESS from the same state under either SANITIZE_MODE stores the
same LOW, BAND, HIGH, answers the same response, and differs in nothing but the configured mode itself. (40_process.md
R106, 93_implementation_defined.md section 1) -/
def Obligations.SanitizeModesAgreeOnFinite : Prop :=
  ∀ (x : F32) (s t : State) (mode : SanitizeMode),
    let m := s.cfg.denormalMode
    let low1 := fadd m s.low (fmul m s.f s.band)
    let high1 := fsub m (fsub m x low1) (fmul m s.damp s.band)
    isFinite low1 = true → isFinite high1 = true → isFinite (fadd m s.band (fmul m s.f high1)) = true →
    exec (.process x) s = .next t →
    exec (.process x) { s with cfg := { s.cfg with sanitizeMode := mode } } =
      .next { t with cfg := { t.cfg with sanitizeMode := mode } }

/-- From LOW = BAND = HIGH = +0.0, with SHAPE in [0, 1] and the valid SHAPE_SPLIT, for every F and DAMP and in every mode,
PROCESS +0.0 changes nothing but appends the response +0.0: a contained filter stays silent. (40_process.md R113,
42_control.md R140) -/
def Obligations.ZeroInputOnZeroStateIsSilent : Prop :=
  ∀ s : State, s.low = plusZero → s.band = plusZero → s.high = plusZero →
    inUnit s.shape = true → s.cfg.shapeSplit = half →
    exec (.process plusZero) s = .next { s with responses := s.responses ++ [plusZero] }

/-- With the valid SHAPE_SPLIT, PROCESS x answers, in every mode, a response whose value is that of the stored LOW if
SHAPE is +0.0, of the stored BAND if SHAPE is 0.5 and of the stored HIGH if SHAPE is 1.0 (the sign of a zero result is
left open, as in the rules). (40_process.md R108, 40_process.md R109, 40_process.md R110, 41_parameters.md R129) -/
def Obligations.ShapeEndPointsSelectPureOutputs : Prop :=
  ∀ (x : F32) (s : State), s.cfg.shapeSplit = half →
    ∃ t out, exec (.process x) s = .next t ∧ t.responses = s.responses ++ [out] ∧
      (s.shape = plusZero → valueOf out = valueOf t.low) ∧
      (s.shape = half → valueOf out = valueOf t.band) ∧
      (s.shape = one → valueOf out = valueOf t.high)

/-- With F = 0.5, DAMP = 1.0, SHAPE = 0.25, the valid SHAPE_SPLIT and the state all +0.0, PROCESS 1.0 leaves LOW = +0.0,
BAND = 0.5, HIGH = 1.0 and answers 0.25, and nothing else changes, in every mode. The spec derives this example from
R112 (its mark on R115). (40_process.md R115) -/
def Obligations.WorkedExampleOfProcess : Prop :=
  ∀ s : State, s.f = 0x3F000000#32 → s.damp = 0x3F800000#32 → s.shape = 0x3E800000#32 →
    s.cfg.shapeSplit = half → s.low = plusZero → s.band = plusZero → s.high = plusZero →
    exec (.process 0x3F800000#32) s =
      .next { s with low := 0x00000000#32, band := 0x3F000000#32, high := 0x3F800000#32,
                     responses := s.responses ++ [0x3E800000#32] }

/-- clampN answers nothing exactly for a NaN; else +0.0 if p <= 0, among them -0.0 and -Inf; else 1.0 if p >= 1, among
them +Inf; else p itself. (R15) -/
def Obligations.ClampFollowsNormalizedRange : Prop :=
  ∀ p : F32,
    (clampN p = none ↔ isNaN p = true) ∧
    (fle p plusZero = true → clampN p = some 0x00000000#32) ∧
    (fle 0x3F800000#32 p = true → clampN p = some 0x3F800000#32) ∧
    (isNaN p = false → fle p plusZero = false → fle 0x3F800000#32 p = false → clampN p = some p) ∧
    clampN minusZero = some 0x00000000#32 ∧ clampN minusInf = some 0x00000000#32 ∧
    clampN plusInf = some 0x3F800000#32

/-- For an operand that is no NaN, SETFREQ p completes with FREQ_N the clamped p, FREQ_HZ = EXPMAP(F_MIN, F_MAX, FREQ_N),
F = min(COEF(FREQ_HZ, SAMPLE_RATE), F_CLAMP) with no lower clamp, and everything else unchanged. (41_parameters.md
R123, 41_parameters.md R121, 41_parameters.md R126, 10_state.md R28, 10_state.md R29) -/
def Obligations.SetfreqWritesFrequency : Prop :=
  ∀ (p : F32) (s : State), isNaN p = false →
    let pn := if fle p plusZero then plusZero else if fle one p then one else p
    let fhz := expmap s.cfg.expmap s.cfg.fMin s.cfg.fMax pn
    exec (.setfreq p) s =
      .next { s with freqN := pn, freqHz := fhz, f := fmin (coef s.cfg.coef fhz s.cfg.sampleRate) s.cfg.fClamp }

/-- For an operand that is no NaN, SETQ p completes with Q_N the clamped p, Q = EXPMAP(Q_MIN, Q_MAX, Q_N), DAMP =
max(1.0/Q, DAMP_FLOOR) with one binary32 division, and everything else unchanged. (41_parameters.md R127,
41_parameters.md R121, 41_parameters.md R128, 10_state.md R30, 10_state.md R31) -/
def Obligations.SetqWritesDamping : Prop :=
  ∀ (p : F32) (s : State), isNaN p = false →
    let pn := if fle p plusZero then plusZero else if fle one p then one else p
    let q := expmap s.cfg.expmap s.cfg.qMin s.cfg.qMax pn
    exec (.setq p) s =
      .next { s with qN := pn, q := q, damp := fmax (fdiv s.cfg.denormalMode one q) s.cfg.dampFloor }

/-- For an operand that is no NaN, SETSHAPE p completes with SHAPE the clamped p and everything else unchanged.
(41_parameters.md R129, 41_parameters.md R121) -/
def Obligations.SetshapeWritesShape : Prop :=
  ∀ (p : F32) (s : State), isNaN p = false →
    exec (.setshape p) s =
      .next { s with shape := if fle p plusZero then plusZero else if fle one p then one else p }

/-- For a NaN of any payload, SETFREQ, SETQ and SETSHAPE complete with the state exactly as it was: no register changes
and no response is emitted. (R122) -/
def Obligations.NaNParameterWriteIsIgnored : Prop :=
  ∀ (p : F32) (s : State), isNaN p = true →
    exec (.setfreq p) s = .next s ∧ exec (.setq p) s = .next s ∧ exec (.setshape p) s = .next s

/-- In every state that meets Inv, SETFREQ with FREQ_N, SETQ with Q_N and SETSHAPE with SHAPE complete with the state
exactly as it was. The spec derives this from its setter rules (its mark on R131). (41_parameters.md R131) -/
def Obligations.SetterWithHeldValueIsIdle : Prop :=
  ∀ s : State, Inv s →
    exec (.setfreq s.freqN) s = .next s ∧ exec (.setq s.qN) s = .next s ∧ exec (.setshape s.shape) s = .next s

/-- SETQ with an operand that is no NaN completes with DAMP = max(1.0/Q, DAMP_FLOOR) of its new Q; the default DAMP_FLOOR
is 0x3C23D70A; with a valid configuration of that floor and Q_MAX <= 100 (so with the default 20), DAMP is 1.0/Q for
every Q_N; and with Q_MAX <= 20, 1.0/Q is at least 0.05 as binary32 for every Q_N. The spec derives the clauses on
Q_MAX (its mark on R128). (41_parameters.md R128) -/
def Obligations.DampingFloorInertUpToHundred : Prop :=
  (∀ (p : F32) (s : State), isNaN p = false →
    ∃ t, exec (.setq p) s = .next t ∧ t.damp = fmax (fdiv s.cfg.denormalMode one t.q) s.cfg.dampFloor) ∧
  State.reset.cfg.dampFloor = 0x3C23D70A#32 ∧ fle State.reset.cfg.qMax 0x42C80000#32 = true ∧
  (∀ (cfg : Config) (qN : F32), cfg.valid = true → cfg.dampFloor = 0x3C23D70A#32 →
    fle cfg.qMax 0x42C80000#32 = true → inUnit qN = true →
    fmax (fdiv cfg.denormalMode one (deriveQ cfg qN)) cfg.dampFloor = fdiv cfg.denormalMode one (deriveQ cfg qN)) ∧
  State.reset.cfg.qMax = 0x41A00000#32 ∧
  (∀ (cfg : Config) (qN : F32), cfg.valid = true → fle cfg.qMax 0x41A00000#32 = true → inUnit qN = true →
    fle 0x3D4CCCCD#32 (fdiv cfg.denormalMode one (deriveQ cfg qN)) = true)

/-- In every state that meets Inv: F_MIN <= FREQ_HZ <= F_MAX, Q_MIN <= Q <= Q_MAX, F is finite and at most F_CLAMP, and
DAMP is at least DAMP_FLOOR. (10_state.md R28, 10_state.md R29, 10_state.md R30, 10_state.md R31, 41_parameters.md
R124) -/
def Obligations.DerivedRegistersStayInRange : Prop :=
  ∀ s : State, Inv s →
    fle s.cfg.fMin s.freqHz = true ∧ fle s.freqHz s.cfg.fMax = true ∧
    fle s.cfg.qMin s.q = true ∧ fle s.q s.cfg.qMax = true ∧
    isFinite s.f = true ∧ fle s.f s.cfg.fClamp = true ∧ fle s.cfg.dampFloor s.damp = true

/-- On the operands R124 defines it on, EXPMAP(lo, hi, 0) = lo, EXPMAP(lo, hi, 1) = hi and lo <= EXPMAP(lo, hi, p) <= hi,
for the reference and for every configured function; and every configured function is non-decreasing in p. (That the
reference is non-decreasing is a statement of its own.) (41_parameters.md R124) -/
def Obligations.ExpmapKeepsEndPointsAndRange : Prop :=
  ∀ (fn : NumericFn) (lo hi p : F32), expmapDomain lo hi p = true →
    expmap fn lo hi 0x00000000#32 = lo ∧ expmap fn lo hi 0x3F800000#32 = hi ∧
    fle lo (expmap fn lo hi p) = true ∧ fle (expmap fn lo hi p) hi = true ∧
    (∀ (k : Nat) (r : F32), fn = .configured k → inUnit r = true → fle p r = true →
      fle (expmap fn lo hi p) (expmap fn lo hi r) = true)

/-- On all operands R124 defines it on, the reference EXPMAP is round32(lo*(hi/lo)^p) of the exact real value: nearest,
ties to even. (41_parameters.md R124, 00_scope.md R13) -/
def Obligations.ExpmapReferenceIsCorrectlyRounded : Prop :=
  ∀ lo hi p : F32, expmapDomain lo hi p = true →
    RoundsTo ((valueOf lo : ℝ) * ((valueOf hi : ℝ) / (valueOf lo : ℝ)) ^ ((valueOf p : ℚ) : ℝ))
      (expmap .reference lo hi p)

/-- On all operands R124 defines it on, p <= r gives EXPMAP(lo, hi, p) <= EXPMAP(lo, hi, r) for the reference. The spec
derives this (its mark in R124). (41_parameters.md R124) -/
def Obligations.ExpmapReferenceIsMonotone : Prop :=
  ∀ lo hi p r : F32, expmapDomain lo hi p = true → expmapDomain lo hi r = true → fle p r = true →
    fle (expmap .reference lo hi p) (expmap .reference lo hi r) = true

/-- For all finite fhz >= 0 and finite sr > 0, the reference COEF is round32(2*sin(pi*fhz/sr)) of the exact real value:
nearest, ties to even. (RoundsTo leaves the sign of a zero result open where the sine is zero; there the model's
choice is log entry 11.) (41_parameters.md R125, 00_scope.md R13) -/
def Obligations.CoefReferenceIsCorrectlyRounded : Prop :=
  ∀ fhz sr : F32, coefDomain fhz sr = true →
    RoundsTo (2 * Real.sin (Real.pi * (valueOf fhz : ℝ) / (valueOf sr : ℝ))) (coef .reference fhz sr)

/-- For finite fhz >= 0 and finite sr > 0, the result of the reference and of every configured COEF is finite and in [-2,
2]. (41_parameters.md R125) -/
def Obligations.CoefIsFiniteWithinTwo : Prop :=
  ∀ (fn : NumericFn) (fhz sr : F32), coefDomain fhz sr = true →
    isFinite (coef fn fhz sr) = true ∧ |valueOf (coef fn fhz sr)| ≤ 2

/-- In a valid configuration with the reference COEF and F_CLAMP = 1.0, for every FREQ_N in [0, 1] whose FREQ_HZ is at
least SAMPLE_RATE/6 and at most SAMPLE_RATE/2, F is exactly 1.0. (41_parameters.md R130, 41_parameters.md R126) -/
def Obligations.FrequencyClampActiveFromSixthOfRate : Prop :=
  ∀ (cfg : Config) (pn : F32), cfg.valid = true → cfg.coef = .reference → cfg.fClamp = one → inUnit pn = true →
    units cfg.sampleRate ≤ 6 * units (deriveFreqHz cfg pn) → 2 * units (deriveFreqHz cfg pn) ≤ units cfg.sampleRate →
    deriveF cfg pn = one

/-- In every valid configuration with the reference COEF and SAMPLE_RATE > 2*F_MAX, whatever its EXPMAP, F_CLAMP and
modes, and F_MIN above SAMPLE_RATE/2^152 (each F_MIN from 2^-24 on is; below it COEF may underflow to zero), for every
FREQ_N in [0, 1], F is greater than 0 and at most F_CLAMP, which is 1.0 in the default configuration. (40_process.md
R117, 41_parameters.md R126) -/
def Obligations.FrequencyCoefficientIsPositiveAboveTwiceMaximum : Prop :=
  (∀ (cfg : Config) (pn : F32), cfg.valid = true → cfg.coef = .reference →
    2 * units cfg.fMax < units cfg.sampleRate → units cfg.sampleRate < 2 ^ 152 * units cfg.fMin → inUnit pn = true →
    flt plusZero (deriveF cfg pn) = true ∧ fle (deriveF cfg pn) cfg.fClamp = true) ∧
  Config.default.fClamp = 0x3F800000#32

/-- In every valid configuration with the reference EXPMAP and COEF and SAMPLE_RATE > 2*F_MAX, for FREQ_N values p <= r in
[0, 1], F at p is at most F at r. (41_parameters.md R130) -/
def Obligations.FrequencyCoefficientRisesWithFrequency : Prop :=
  ∀ (cfg : Config) (p r : F32), cfg.valid = true → cfg.expmap = .reference → cfg.coef = .reference →
    2 * units cfg.fMax < units cfg.sampleRate → inUnit p = true → inUnit r = true → fle p r = true →
    fle (deriveF cfg p) (deriveF cfg r) = true

/-- For finite operands under DENORMAL_MODE IEEE, a + b and a - b are the exact sum and difference of the values, rounded
once to nearest, ties to even, infinite from the overflow threshold on; where the exact result is zero, it is -0.0 if
both terms are of negative sign and else +0.0, so a sum of zeros of opposite sign is +0.0. The content beyond R13's
words is IEEE 754's (PRESUMED, log entry 18). (00_scope.md R13, 40_process.md R113) -/
def Obligations.AdditionAndSubtractionRoundOnce : Prop :=
  ∀ a b : F32, isFinite a = true → isFinite b = true →
    RoundsTo ((valueOf a : ℝ) + (valueOf b : ℝ)) (fadd .ieee a b) ∧
    RoundsTo ((valueOf a : ℝ) - (valueOf b : ℝ)) (fsub .ieee a b) ∧
    (valueOf a + valueOf b = 0 → fadd .ieee a b = if fsign a && fsign b then minusZero else plusZero) ∧
    (valueOf a - valueOf b = 0 → fsub .ieee a b = if fsign a && !fsign b then minusZero else plusZero)

/-- For finite operands under DENORMAL_MODE IEEE, a * b is the exact product of the values, rounded once to nearest, ties
to even, infinite from the overflow threshold on; its sign is negative exactly if the signs of a and b differ, a zero
result among it. The content beyond R13's words is IEEE 754's (PRESUMED, log entry 18). (00_scope.md R13,
40_process.md R113) -/
def Obligations.MultiplicationRoundsOnce : Prop :=
  ∀ a b : F32, isFinite a = true → isFinite b = true →
    RoundsTo ((valueOf a : ℝ) * (valueOf b : ℝ)) (fmul .ieee a b) ∧
    fsign (fmul .ieee a b) = (fsign a != fsign b)

/-- For finite operands with b not zero under DENORMAL_MODE IEEE, a / b is the exact quotient of the values, rounded once
to nearest, ties to even, infinite from the overflow threshold on; its sign is negative exactly if the signs of a and
b differ, a zero result among it. The content beyond R13's words is IEEE 754's (PRESUMED, log entry 18). (00_scope.md
R13, 41_parameters.md R128) -/
def Obligations.DivisionRoundsOnce : Prop :=
  ∀ a b : F32, isFinite a = true → isFinite b = true → valueOf b ≠ 0 →
    RoundsTo ((valueOf a : ℝ) / (valueOf b : ℝ)) (fdiv .ieee a b) ∧
    fsign (fdiv .ieee a b) = (fsign a != fsign b)

/-- Under DENORMAL_MODE IEEE: with a NaN operand each of + - * / is a NaN. An infinity plus or minus a finite value is
that infinity; a finite value plus an infinity is that infinity, and minus an infinity its negation; Inf + Inf of one
sign is that infinity and of opposite signs a NaN, and Inf - Inf the other way round. Inf times a non-zero value is an
infinity and times a zero a NaN; Inf / finite is an infinity, finite / Inf a zero, Inf / Inf and 0 / 0 NaNs, and a
non-zero value / 0 an infinity; these infinities and zeros are negative exactly if the operands' signs differ. R13
takes all this from IEEE 754 without restating it (PRESUMED, log entry 18). (00_scope.md R13, 40_process.md R113) -/
def Obligations.ArithmeticOnInfinitiesAndNaNs : Prop :=
  ∀ a b : F32,
    let inf := if fsign a != fsign b then minusInf else plusInf
    (isNaN a = true ∨ isNaN b = true →
      isNaN (fadd .ieee a b) = true ∧ isNaN (fsub .ieee a b) = true ∧
      isNaN (fmul .ieee a b) = true ∧ isNaN (fdiv .ieee a b) = true) ∧
    (isInf a = true → isFinite b = true →
      fadd .ieee a b = a ∧ fsub .ieee a b = a ∧ fdiv .ieee a b = inf ∧
      (valueOf b ≠ 0 → fmul .ieee a b = inf) ∧ (valueOf b = 0 → isNaN (fmul .ieee a b) = true)) ∧
    (isFinite a = true → isInf b = true →
      fadd .ieee a b = b ∧ fsub .ieee a b = (if fsign b then plusInf else minusInf) ∧
      fdiv .ieee a b = (if fsign a != fsign b then minusZero else plusZero) ∧
      (valueOf a ≠ 0 → fmul .ieee a b = inf) ∧ (valueOf a = 0 → isNaN (fmul .ieee a b) = true)) ∧
    (isInf a = true → isInf b = true →
      fmul .ieee a b = inf ∧ isNaN (fdiv .ieee a b) = true ∧
      (fsign a = fsign b → fadd .ieee a b = a ∧ isNaN (fsub .ieee a b) = true) ∧
      (fsign a ≠ fsign b → isNaN (fadd .ieee a b) = true ∧ fsub .ieee a b = a)) ∧
    (isFinite a = true → isFinite b = true → valueOf b = 0 →
      (valueOf a = 0 → isNaN (fdiv .ieee a b) = true) ∧ (valueOf a ≠ 0 → fdiv .ieee a b = inf))

/-- Under FTZ_DAZ each of + - * / answers the IEEE result for the operands with every subnormal replaced by the zero of
its sign, and where that result is subnormal, the zero of its sign; no result is subnormal. That the flushing looks at
the rounded result and at these four operations alone is the model's reading (log entries 8 and 9). (00_scope.md R16) -/
def Obligations.FtzDazFlushesOperandsAndResults : Prop :=
  ∀ a b : F32,
    let z := fun c : F32 => if isSubnormal c then (if fsign c then minusZero else plusZero) else c
    fadd .ftzDaz a b = z (fadd .ieee (z a) (z b)) ∧ fsub .ftzDaz a b = z (fsub .ieee (z a) (z b)) ∧
    fmul .ftzDaz a b = z (fmul .ieee (z a) (z b)) ∧ fdiv .ftzDaz a b = z (fdiv .ieee (z a) (z b)) ∧
    isSubnormal (fadd .ftzDaz a b) = false ∧ isSubnormal (fsub .ftzDaz a b) = false ∧
    isSubnormal (fmul .ftzDaz a b) = false ∧ isSubnormal (fdiv .ftzDaz a b) = false

/-- In every state and for every ignored DATA, RESET completes with LOW, BAND and HIGH +0.0 and everything else, FREQ_N,
Q_N, SHAPE and the derived coefficient registers among it, unchanged. (R141) -/
def Obligations.ResetZeroesIntegratorsOnly : Prop :=
  ∀ (data : F32) (s : State),
    exec (.reset data) s =
      .next { s with low := 0x00000000#32, band := 0x00000000#32, high := 0x00000000#32 }

/-- In every state that meets Inv: a second RESET changes nothing, and PROCESS +0.0 after a RESET answers +0.0 and changes
nothing else. (42_control.md R140) -/
def Obligations.ResetThenZeroInputIsSilent : Prop :=
  ∀ (data data' : F32) (s : State), Inv s →
    ∃ t, exec (.reset data) s = .next t ∧ exec (.reset data') t = .next t ∧
      exec (.process plusZero) t = .next { t with responses := t.responses ++ [plusZero] }

/-- When the next delivered word is illegal (RSV not zero, or OP not in 0x01 to 0x05), the step consumes it and changes
nothing else: every register and every response stays, and the words after it stay in order. (R142, R154) -/
def Obligations.IllegalWordIsNoOp : Prop :=
  ∀ (s : State) (w : Cmd) (rest : List Cmd), s.inbox = w :: rest →
    (rsvField w ≠ 0#24 ∨ ¬ (1 ≤ (opField w).toNat ∧ (opField w).toNat ≤ 5)) →
    step s = .next { s with inbox := rest }

/-- For every word and every command, decode answers that command exactly if the word is its encoding: no bit of DATA, RSV
or OP is dropped or misplaced, for all five commands and every operand pattern. For RESET, whose DATA R75 ignores and
R78 encodes as zero, that DATA comes back is the model's choice to keep it in the syntax (DESIGN CHOICE, log entry
16). (30_encoding.md R71, 30_encoding.md R72, 30_encoding.md R73, 30_encoding.md R74, 30_encoding.md R75) -/
def Obligations.DecodeAndEncodeAreInverse : Prop :=
  ∀ (w : Cmd) (i : Instr), decode w = .ok i ↔ encode i = w

/-- With the mask 0x00000000FFFFFFFF, a word decodes to PROCESS, SETFREQ, SETQ, SETSHAPE or RESET exactly if its masked
value is 1, 2, 3, 4 or 5, with DATA as the operand; every other word is illegal; and a word is legal exactly if bits
31:8 are zero and bits 7:0 are 0x01 to 0x05. The spec derives that each word is exactly one command or illegal (its
mark in R74: from R71 and R73). That RESET too has DATA as its operand is the model's choice (DESIGN CHOICE, log entry
16): R73 and R140 give RESET no operand. (30_encoding.md R74, 30_encoding.md R71, 30_encoding.md R73) -/
def Obligations.DecodeIsTotalByMatchAndMask : Prop :=
  ∀ w : Cmd,
    (w &&& 0x00000000FFFFFFFF#64 = 0x0000000000000001#64 ↔ decode w = .ok (.process (dataField w))) ∧
    (w &&& 0x00000000FFFFFFFF#64 = 0x0000000000000002#64 ↔ decode w = .ok (.setfreq (dataField w))) ∧
    (w &&& 0x00000000FFFFFFFF#64 = 0x0000000000000003#64 ↔ decode w = .ok (.setq (dataField w))) ∧
    (w &&& 0x00000000FFFFFFFF#64 = 0x0000000000000004#64 ↔ decode w = .ok (.setshape (dataField w))) ∧
    (w &&& 0x00000000FFFFFFFF#64 = 0x0000000000000005#64 ↔ decode w = .ok (.reset (dataField w))) ∧
    ((∃ i, decode w = .ok i) ↔ legalWord w = true) ∧
    (legalWord w = true ↔ rsvField w = 0#24 ∧ 1 ≤ (opField w).toNat ∧ (opField w).toNat ≤ 5)

/-- Every word with RSV zero and OP 0x05 decodes as RESET whatever its DATA, and RESET has the same effect for every DATA;
every word with RSV not zero, or OP 0x00 or 0x06 to 0xFF, decodes as no command. (R75) -/
def Obligations.ResetIgnoresData : Prop :=
  (∀ data : F32, decode (cmdWord data 0#24 0x05#8) = .ok (.reset data)) ∧
  (∀ (data data' : F32) (s : State), exec (.reset data) s = exec (.reset data') s) ∧
  (∀ (data : F32) (rsv : BitVec 24) (op : BitVec 8), rsv ≠ 0#24 →
    ∀ i, decode (cmdWord data rsv op) ≠ .ok i) ∧
  (∀ (data : F32) (rsv : BitVec 24) (op : BitVec 8), op = 0x00#8 ∨ 0x06#8 ≤ op →
    ∀ i, decode (cmdWord data rsv op) ≠ .ok i)

/-- Each row of the table of R80: the assembly line assembles to the word, the word decodes to the command with its
operand, and the two illegal words decode to their reasons. The spec derives these examples from R71 to R73 and R78
(its mark on R80). (30_encoding.md R80) -/
def Obligations.EncodingExamplesOfTheSpec : Prop :=
  assembleLine ['P', 'R', 'O', 'C', 'E', 'S', 'S', ' ', '1', '.', '0'] = some [0x3F80000000000001#64] ∧
  assembleLine ['P', 'R', 'O', 'C', 'E', 'S', 'S', ' ', '0', '.', '0'] = some [0x0000000000000001#64] ∧
  assembleLine ['P', 'R', 'O', 'C', 'E', 'S', 'S', ' ', '-', '0', '.', '5'] = some [0xBF00000000000001#64] ∧
  assembleLine ['P', 'R', 'O', 'C', 'E', 'S', 'S', ' ', 'n', 'a', 'n'] = some [0x7FC0000000000001#64] ∧
  assembleLine ['S', 'E', 'T', 'F', 'R', 'E', 'Q', ' ', '1', '.', '0'] = some [0x3F80000000000002#64] ∧
  assembleLine ['S', 'E', 'T', 'Q', ' ', '0', '.', '0'] = some [0x0000000000000003#64] ∧
  assembleLine ['S', 'E', 'T', 'Q', ' ', '1', '.', '0'] = some [0x3F80000000000003#64] ∧
  assembleLine ['S', 'E', 'T', 'S', 'H', 'A', 'P', 'E', ' ', '0', '.', '5'] = some [0x3F00000000000004#64] ∧
  assembleLine ['S', 'E', 'T', 'S', 'H', 'A', 'P', 'E', ' ', '0', '.', '2', '5'] = some [0x3E80000000000004#64] ∧
  assembleLine ['R', 'E', 'S', 'E', 'T'] = some [0x0000000000000005#64] ∧
  assembleLine ['.', 'w', 'o', 'r', 'd', '6', '4', ' ', '0', 'x', '0', '0', '0', '0', '0', '0', '0', '0', '0', '0',
    '0', '0', '0', '0', '0', '6'] = some [0x0000000000000006#64] ∧
  assembleLine ['.', 'w', 'o', 'r', 'd', '6', '4', ' ', '0', 'x', '3', 'F', '8', '0', '0', '0', '0', '0', '0', '0',
    '0', '0', '0', '1', '0', '1'] = some [0x3F80000000000101#64] ∧
  decode 0x3F80000000000001#64 = .ok (.process 0x3F800000#32) ∧
  decode 0x0000000000000001#64 = .ok (.process 0x00000000#32) ∧
  decode 0xBF00000000000001#64 = .ok (.process 0xBF000000#32) ∧
  decode 0x7FC0000000000001#64 = .ok (.process 0x7FC00000#32) ∧
  decode 0x3F80000000000002#64 = .ok (.setfreq 0x3F800000#32) ∧
  decode 0x0000000000000003#64 = .ok (.setq 0x00000000#32) ∧
  decode 0x3F80000000000003#64 = .ok (.setq 0x3F800000#32) ∧
  decode 0x3F00000000000004#64 = .ok (.setshape 0x3F000000#32) ∧
  decode 0x3E80000000000004#64 = .ok (.setshape 0x3E800000#32) ∧
  decode 0x0000000000000005#64 = .ok (.reset 0x00000000#32) ∧
  decode 0x0000000000000006#64 = .error (.reservedOpcode 0x06#8) ∧
  decode 0x3F80000000000101#64 = .error (.reservedNotZero 0x000001#24)

/-- LOWPASS, BANDPASS, HIGHPASS and NOTEON assemble as SETSHAPE 0.0, SETSHAPE 0.5, SETSHAPE 1.0 and RESET do, and SILENCE
N, for every decimal N, to N times the word of PROCESS 0.0. (R79) -/
def Obligations.PseudoCommandsExpand : Prop :=
  assembleLine ['L', 'O', 'W', 'P', 'A', 'S', 'S'] =
    assembleLine ['S', 'E', 'T', 'S', 'H', 'A', 'P', 'E', ' ', '0', '.', '0'] ∧
  assembleLine ['B', 'A', 'N', 'D', 'P', 'A', 'S', 'S'] =
    assembleLine ['S', 'E', 'T', 'S', 'H', 'A', 'P', 'E', ' ', '0', '.', '5'] ∧
  assembleLine ['H', 'I', 'G', 'H', 'P', 'A', 'S', 'S'] =
    assembleLine ['S', 'E', 'T', 'S', 'H', 'A', 'P', 'E', ' ', '1', '.', '0'] ∧
  assembleLine ['N', 'O', 'T', 'E', 'O', 'N'] = assembleLine ['R', 'E', 'S', 'E', 'T'] ∧
  assembleLine ['L', 'O', 'W', 'P', 'A', 'S', 'S'] = some [0x0000000000000004#64] ∧
  assembleLine ['N', 'O', 'T', 'E', 'O', 'N'] = some [0x0000000000000005#64] ∧
  (∀ (digits : List Char) (n : Nat), natLiteral digits = some n →
    assembleWords [['S', 'I', 'L', 'E', 'N', 'C', 'E'], digits] = some (List.replicate n 0x0000000000000001#64))

/-- When the oldest delivered word decodes to the command i, the step is exec of i on the state without that word. A word
placed by withFetchWord is the next one taken, before any word issued earlier: that clause is the model's (DEDUCED,
log entry 3) and rests on no rule. (20_memory.md R55, 60_exceptions.md R156) -/
def Obligations.StepRunsDecodedCommand : Prop :=
  (∀ (s : State) (w : Cmd) (rest : List Cmd) (i : Instr), s.inbox = w :: rest → decode w = .ok i →
    step s = exec i { s with inbox := rest }) ∧
  (∀ (s : State) (i : Instr), step (s.withFetchWord 64 (encode i).toNat) = exec i s)

/-- In every state and for every delivered word, the step answers a next state; there is no fault and no refusal. R150
says of commands that none traps, halts or records an error. That a step with no word delivered answers a next state
is the model's reading (DEDUCED, log entry 2), and so is that nothing is refused (DEDUCED, log entry 10), where R142
lets a model refuse an illegal word. (60_exceptions.md R150, 42_control.md R142) -/
def Obligations.StepNeverStops : Prop :=
  ∀ s : State, ∃ t, step s = .next t

/-- When no command word has been delivered, the step answers the same state (the model's reading of a block that waits,
log entry 2), whatever bytes of an unfinished word have arrived. (60_exceptions.md R163, 70_reset_and_hazards.md R181,
20_memory.md R52) -/
def Obligations.WaitingKeepsState : Prop :=
  ∀ s : State, s.inbox = [] → step s = .next s

/-- From a state whose delivered words begin with ws, as many steps as ws has words answer the state obtained by applying
the effects of the words of ws one after the other in issue order, with the rest of the delivered words still to come;
and the responses of the words issued first come first. (R55) -/
def Obligations.StreamEffectIsComposition : Prop :=
  ∀ (ws rest : List Cmd) (s : State), s.inbox = ws ++ rest →
    Sys2Proof.core.run ws.length s = .next { ws.foldl commandEffect { s with inbox := [] } with inbox := rest } ∧
    (∀ us vs : List Cmd, ws = us ++ vs →
      (us.foldl commandEffect s).responses <+: (ws.foldl commandEffect s).responses)

/-- When a step takes a word, it appends exactly one response, the 32 bits of the output sample of R111 and so finite, if
the word is a PROCESS, and else, for setters, RESET and illegal words, leaves the responses as they are. (R77) -/
def Obligations.OnlyProcessResponds : Prop :=
  ∀ (s t : State) (w : Cmd) (rest : List Cmd), s.inbox = w :: rest → step s = .next t →
    (∀ x, decode w = .ok (.process x) →
      t.responses = s.responses ++ [processOutput x s] ∧ isFinite (processOutput x s) = true) ∧
    (¬ (∃ x, decode w = .ok (.process x)) → t.responses = s.responses)

/-- Byte k of a command word or a response on a byte transport is bits 8k+7:8k; with no unfinished word, receiving the
eight bytes of a word issues that word and nothing else; and bytes that do not complete a word issue no command.
decodeBytes reads the word's command from its bytes. (20_memory.md R51, 20_memory.md R52) -/
def Obligations.BytesOfAWordDeliverIt : Prop :=
  (∀ (w : Cmd) (k : Nat), k < 8 → (cmdBytes w)[k]? = some (w.extractLsb' (8 * k) 8)) ∧
  (∀ (r : F32) (k : Nat), k < 4 → (responseBytes r)[k]? = some (r.extractLsb' (8 * k) 8)) ∧
  (∀ (w : Cmd) (s : State), s.partialWord = [] → receiveBytes (cmdBytes w) s = issueCommand w s) ∧
  (∀ (bs : List Byte) (s : State), s.partialWord.length + bs.length < 8 →
    receiveBytes bs s = { s with partialWord := s.partialWord ++ bs }) ∧
  (∀ (w : Cmd) (i : Instr) (rest : List Byte), decode w = .ok i → decodeBytes (cmdBytes w ++ rest) = .ok (i, rest))

/-- In a system of instances, a step of instance k puts the state its own step answers in its place, changes no other
instance, leaves instance k the same whatever the others are, and steps of two different instances give the same
system in either order. The spec derives this from R55 and R38 (its mark on R60). (20_memory.md R60) -/
def Obligations.InstancesAreIndependent : Prop :=
  (∀ (sys : List State) (k : Nat) (s t : State), sys[k]? = some s → step s = .next t →
    (stepInstance k sys)[k]? = some t) ∧
  ∀ (sys : List State) (j k : Nat), j ≠ k →
    (stepInstance k sys)[j]? = sys[j]? ∧
    (∀ sys' : List State, sys'[k]? = sys[k]? → (stepInstance k sys')[k]? = (stepInstance k sys)[k]?) ∧
    stepInstance j (stepInstance k sys) = stepInstance k (stepInstance j sys)

/-- From a state with nothing else delivered, the three commands of the boot sequence with operands that are no NaN, run
to their end, leave FREQ_N, Q_N and SHAPE at the clamped operands, whatever they were before, the integrators as they
were, and no response. (70_reset_and_hazards.md R183, 10_state.md R27) -/
def Obligations.BootSequenceWritesParameters : Prop :=
  ∀ (a b c : F32) (s : State), s.inbox = [] → isNaN a = false → isNaN b = false → isNaN c = false →
    ∃ t, Sys2Proof.core.run 3 (issueAll (bootCommands a b c) s) = .next t ∧
      some t.freqN = clampN a ∧ some t.qN = clampN b ∧ some t.shape = clampN c ∧
      t.low = s.low ∧ t.band = s.band ∧ t.high = s.high ∧ t.responses = s.responses ∧ t.inbox = []

/-- From a state with nothing else delivered, the commands the host issues on note-on or force-stop, run to their end,
leave LOW, BAND and HIGH +0.0 and all else unchanged; note-off issues no command. (70_reset_and_hazards.md R182,
42_control.md R140) -/
def Obligations.NoteOnClearsIntegrators : Prop :=
  (∀ (e : VoiceEvent) (s : State), e = .noteOn ∨ e = .forceStop → s.inbox = [] →
    Sys2Proof.core.run (voiceEventCommands e).length (issueAll (voiceEventCommands e) s) =
      .next { s with low := plusZero, band := plusZero, high := plusZero }) ∧
  voiceEventCommands .noteOff = []
end

