-- ==== Sys2Proof/Laws/Binary32.lean ====
section
/-! SUPPORT. The small lemmas of the binary32 definitions: the parts of a packed word, the tests in terms of the magnitude,
words in [+0.0, 1.0], and where a non-finite operand takes each operation. -/

namespace Sys2Proof.Machine

/-- A word is its sign and its magnitude. -/
theorem toNat_eq_sign_mag (a : F32) : a.toNat = (if fsign a then 2 ^ 31 else 0) + fmag a := by
  have h := a.isLt
  unfold fsign fmag
  split <;> rename_i hs <;> simp only [decide_eq_true_eq] at hs <;> omega

theorem fmag_lt (a : F32) : fmag a < 2 ^ 31 := Nat.mod_lt _ (by norm_num)

/-- Words with the same sign and magnitude are the same word. -/
theorem ext_sign_mag {a b : F32} (hs : fsign a = fsign b) (hm : fmag a = fmag b) : a = b := by
  apply BitVec.eq_of_toNat_eq
  rw [toNat_eq_sign_mag a, toNat_eq_sign_mag b, hs, hm]

theorem toNat_pack (s : Bool) {m : Nat} (h : m < 2 ^ 31) : (pack s m).toNat = (if s then 2 ^ 31 else 0) + m := by
  unfold pack
  cases s <;> simp only [BitVec.toNat_ofNat, if_true, Bool.false_eq_true, if_false] <;> omega

@[simp] theorem fsign_pack (s : Bool) {m : Nat} (h : m < 2 ^ 31) : fsign (pack s m) = s := by
  unfold fsign
  rw [toNat_pack s h]
  cases s <;> simp <;> omega

@[simp] theorem fmag_pack (s : Bool) {m : Nat} (h : m < 2 ^ 31) : fmag (pack s m) = m := by
  unfold fmag
  rw [toNat_pack s h]
  cases s <;> simp <;> omega

/-- Packing a word's own sign and magnitude gives the word. -/
theorem pack_sign_mag (a : F32) : pack (fsign a) (fmag a) = a :=
  ext_sign_mag (fsign_pack _ (fmag_lt a)) (fmag_pack _ (fmag_lt a))

theorem roundMag_le (num den : Nat) : roundMag num den ≤ 0x7F800000 := Nat.min_le_right _ _

theorem roundMag_lt (num den : Nat) : roundMag num den < 2 ^ 31 :=
  Nat.lt_of_le_of_lt (roundMag_le num den) (by norm_num)

theorem isFinite_iff (a : F32) : isFinite a = true ↔ fmag a < 0x7F800000 := by simp [isFinite]

theorem isNaN_iff (a : F32) : isNaN a = true ↔ 0x7F800000 < fmag a := by simp [isNaN]

theorem isInf_iff (a : F32) : isInf a = true ↔ fmag a = 0x7F800000 := by simp [isInf]

/-- A value is non-finite exactly if it is a NaN or an infinity (R12). -/
theorem not_isFinite_iff (a : F32) : isFinite a = false ↔ isNaN a = true ∨ isInf a = true := by
  simp [isFinite, isNaN, isInf]
  omega

theorem not_isNaN_of_isFinite {a : F32} (h : isFinite a = true) : isNaN a = false := by
  simp [isFinite, isNaN] at *
  omega

theorem not_isInf_of_isFinite {a : F32} (h : isFinite a = true) : isInf a = false := by
  simp [isFinite, isInf] at *
  omega

/-- A word in [+0.0, 1.0] has sign 0 and a magnitude up to that of 1.0. -/
theorem inUnit_iff (a : F32) : inUnit a = true ↔ fsign a = false ∧ fmag a ≤ 0x3F800000 := by
  have h := toNat_eq_sign_mag a
  have h' := fmag_lt a
  cases hs : fsign a <;> simp [inUnit, hs] at * <;> omega

theorem isFinite_of_inUnit {a : F32} (h : inUnit a = true) : isFinite a = true := by
  rw [inUnit_iff] at h
  rw [isFinite_iff]
  omega

@[simp] theorem isFinite_plusZero : isFinite plusZero = true := by decide
@[simp] theorem inUnit_plusZero : inUnit plusZero = true := by decide
@[simp] theorem inUnit_one : inUnit one = true := by decide
@[simp] theorem isNaN_quietNaN : isNaN quietNaN = true := by decide
@[simp] theorem isFinite_quietNaN : isFinite quietNaN = false := by decide

@[simp] theorem fmag_fneg (a : F32) : fmag (fneg a) = fmag a := fmag_pack _ (fmag_lt a)

@[simp] theorem fsign_fneg (a : F32) : fsign (fneg a) = !fsign a := fsign_pack _ (fmag_lt a)

@[simp] theorem isFinite_fneg (a : F32) : isFinite (fneg a) = isFinite a := by simp [isFinite]

/-- Flushing keeps the sign, and whether a value is finite (R16). -/
theorem isFinite_flushSubnormal (m : DenormalMode) (a : F32) :
    isFinite (flushSubnormal m a) = isFinite a := by
  cases m with
  | ieee => rfl
  | ftzDaz =>
    simp only [flushSubnormal]
    split
    · rename_i h
      simp only [isSubnormal, Bool.and_eq_true, decide_eq_true_eq] at h
      simp [isFinite]
      omega
    · rfl

theorem fsign_flushSubnormal (m : DenormalMode) (a : F32) : fsign (flushSubnormal m a) = fsign a := by
  cases m with
  | ieee => rfl
  | ftzDaz =>
    simp only [flushSubnormal]
    split
    · simp
    · rfl

/-- A sum with a non-finite term is non-finite. -/
theorem add32_not_finite {a b : F32} (h : isFinite a = false ∨ isFinite b = false) : isFinite (add32 a b) = false := by
  unfold add32
  split
  · simp
  · rename_i hn
    simp only [Bool.or_eq_true, not_or, Bool.not_eq_true] at hn
    split
    · rename_i hi
      split
      · simp
      · exact (not_isFinite_iff a).2 (.inr hi)
    · rename_i hi
      have ha : isFinite a = true := by
        by_contra hc
        have := (not_isFinite_iff a).1 (by simpa using hc)
        simp_all
      split
      · rename_i hb
        exact (not_isFinite_iff b).2 (.inr hb)
      · rename_i hb
        have hb' : isFinite b = true := by
          by_contra hc
          have := (not_isFinite_iff b).1 (by simpa using hc)
          simp_all
        simp_all

/-- A product with a non-finite factor is non-finite: `0 * Inf` is a NaN (R113). -/
theorem mul32_not_finite {a b : F32} (h : isFinite a = false ∨ isFinite b = false) : isFinite (mul32 a b) = false := by
  unfold mul32
  split
  · simp
  · rename_i hn
    simp only [Bool.or_eq_true, not_or, Bool.not_eq_true] at hn
    have : (isInf a || isInf b) = true := by
      rw [Bool.or_eq_true]
      rcases h with h | h
      · exact .inl (((not_isFinite_iff a).1 h).resolve_left (by simp [hn.1]))
      · exact .inr (((not_isFinite_iff b).1 h).resolve_left (by simp [hn.2]))
    rw [if_pos this]
    split
    · simp
    · simp [isFinite]

theorem fadd_not_finite (m : DenormalMode) {a b : F32} (h : isFinite a = false ∨ isFinite b = false) :
    isFinite (fadd m a b) = false := by
  unfold fadd underMode
  rw [isFinite_flushSubnormal]
  exact add32_not_finite (by simpa [isFinite_flushSubnormal] using h)

theorem fsub_not_finite (m : DenormalMode) {a b : F32} (h : isFinite a = false ∨ isFinite b = false) :
    isFinite (fsub m a b) = false := by
  unfold fsub underMode sub32
  rw [isFinite_flushSubnormal]
  exact add32_not_finite (by simpa [isFinite_flushSubnormal] using h)

theorem fmul_not_finite (m : DenormalMode) {a b : F32} (h : isFinite a = false ∨ isFinite b = false) :
    isFinite (fmul m a b) = false := by
  unfold fmul underMode
  rw [isFinite_flushSubnormal]
  exact mul32_not_finite (by simpa [isFinite_flushSubnormal] using h)

/-- The order of words in [+0.0, 1.0] is the order of their magnitudes. -/
theorem fle_of_nonneg {a b : F32} (ha : fsign a = false) (hb : fsign b = false) (fa : isFinite a = true)
    (fb : isFinite b = true) : fle a b = decide (fmag a ≤ fmag b) := by
  simp [fle, orderKey, ha, hb, not_isNaN_of_isFinite fa, not_isNaN_of_isFinite fb]

end Sys2Proof.Machine
end

