-- ==== Sys2Proof/Laws/PerInstr.lean ====
section
/-! SUPPORT. Laws said of every command as syntax, one lemma per constructor: the encoded word has a zero RSV field, the
operation code of its command and its operand as DATA (R71 to R73), and is a legal word (R74). -/

namespace Sys2Proof.Laws.EncodedFields

/-- The three fields of the encoded word. -/
def Statement (i : Instr) : Prop :=
  rsvField (encode i) = 0#24 ∧ opField (encode i) = opcodeOf i ∧ dataField (encode i) = operandOf i

/-- The fields of a word put together from three fields. -/
theorem fields_of_cmdWord (data : F32) (rsv : BitVec 24) (op : BitVec 8) :
    rsvField (cmdWord data rsv op) = rsv ∧ opField (cmdWord data rsv op) = op ∧
      dataField (cmdWord data rsv op) = data := by
  refine ⟨?_, ?_, ?_⟩ <;> apply BitVec.eq_of_getLsbD_eq <;> intro k hk <;>
    simp only [rsvField, opField, dataField, cmdWord, BitVec.getLsbD_extractLsb', BitVec.getLsbD_append]
  · have h1 : ¬ (8 + k < 8) := by omega
    have h2 : 8 + k < 24 + 8 := by omega
    simp [hk]
    omega
  · have h1 : k < 24 + 8 := by omega
    simp [hk]
    omega
  · simp [hk]

theorem process (x : F32) : Statement (.process x) := fields_of_cmdWord x 0#24 0x01#8

theorem setfreq (p : F32) : Statement (.setfreq p) := fields_of_cmdWord p 0#24 0x02#8

theorem setq (p : F32) : Statement (.setq p) := fields_of_cmdWord p 0#24 0x03#8

theorem setshape (p : F32) : Statement (.setshape p) := fields_of_cmdWord p 0#24 0x04#8

theorem reset (data : F32) : Statement (.reset data) := fields_of_cmdWord data 0#24 0x05#8

end Sys2Proof.Laws.EncodedFields
end

