-- ==== Sys2Proof/Laws/Decode.lean ====
section
/-! SUPPORT. The fields of a command word as numbers, a word as its fields, and that a word that is not legal does
not decode (R71 to R74). -/

namespace Sys2Proof

/-- The three fields as numbers (R71). -/
theorem toNat_fields (w : Cmd) : (rsvField w).toNat = w.toNat / 2 ^ 8 % 2 ^ 24 ∧
    (opField w).toNat = w.toNat % 2 ^ 8 ∧ (dataField w).toNat = w.toNat / 2 ^ 32 := by
  have := w.isLt
  simp [rsvField, opField, dataField, BitVec.extractLsb'_toNat, Nat.shiftRight_eq_div_pow]
  omega

/-- A word is put together from its fields (R71). -/
theorem cmdWord_of_fields (w : Cmd) : cmdWord (dataField w) (rsvField w) (opField w) = w := by
  apply BitVec.eq_of_getLsbD_eq
  intro k hk
  simp only [rsvField, opField, dataField, cmdWord, BitVec.getLsbD_extractLsb', BitVec.getLsbD_append]
  by_cases h1 : k < 8
  · simp [h1]; omega
  · by_cases h2 : k < 32
    · simp [h1, h2]
      have : k - 8 < 24 := by omega
      simp [this]
      rw [show 8 + (k - 8) = k by omega]
    · have : k - 32 < 32 := by omega
      simp [h2, this]
      rw [show 32 + (k - 32) = k by omega]

/-- A word with RSV not zero, or OP outside 0x01 to 0x05, is rejected (R74, R75). -/
theorem decode_error_of_illegal {w : Cmd} (h : rsvField w ≠ 0#24 ∨ ¬ (1 ≤ (opField w).toNat ∧
    (opField w).toNat ≤ 5)) : ∃ e, decode w = .error e := by
  unfold decode
  split
  · rename_i hr
    have h := h.resolve_left (by simp [hr])
    unfold decodeOp
    generalize opField w = op at *
    have : ∀ k : Nat, k < 256 → (1 ≤ k ∧ k ≤ 5) → op ≠ BitVec.ofNat 8 k := by
      intro k hk h1 he
      subst he
      simp [Nat.mod_eq_of_lt hk] at h
      omega
    rw [if_neg (this 1 (by norm_num) (by norm_num)), if_neg (this 2 (by norm_num) (by norm_num)),
        if_neg (this 3 (by norm_num) (by norm_num)), if_neg (this 4 (by norm_num) (by norm_num)),
            if_neg (this 5 (by norm_num) (by norm_num))]
    exact ⟨_, rfl⟩
  · exact ⟨_, rfl⟩

end Sys2Proof
end

