-- ==== Sys2Proof/Laws/Exact.lean ====
section
/-! SUPPORT. The exact comparisons of the reference EXPMAP and COEF are those of the real values (R124, R125): of a power of a
rational by raising both sides, and of the sine of a rational part of a turn by counting half turns. -/

namespace Sys2Proof.Machine

/-- `comparePower` compares `2 * a * (b/a)^(e.1/e.2)` with `c`. -/
theorem comparePower_spec {a b : Nat} (ha : 0 < a) (e : Nat × Nat) (he : e.1 ≤ e.2) (h0 : 0 < e.2) (c : Nat) :
    (comparePower a b e c = .gt ↔ (c : ℝ) < 2 * ((a : ℝ) * ((b : ℝ) / a) ^ ((e.1 : ℝ) / e.2))) ∧
    (comparePower a b e c = .eq ↔ (c : ℝ) = 2 * ((a : ℝ) * ((b : ℝ) / a) ^ ((e.1 : ℝ) / e.2))) := by
  obtain ⟨k, n⟩ := e
  simp only at he h0 ⊢
  have haR : (0 : ℝ) < a := by exact_mod_cast ha
  have hr : (0 : ℝ) ≤ (b : ℝ) / a := by positivity
  have hpow : ((2 ^ n * a ^ (n - k) * b ^ k : Nat) : ℝ) = (2 * ((a : ℝ) * ((b : ℝ) / a) ^ ((k : ℝ) / n))) ^ n := by
    rw [mul_pow, mul_pow, ← Real.rpow_natCast (((b : ℝ) / a) ^ ((k : ℝ) / n)), ← Real.rpow_mul hr,
      div_mul_cancel₀ _ (by exact_mod_cast h0.ne'), Real.rpow_natCast, div_pow]
    push_cast
    rw [show (a : ℝ) ^ n = a ^ (n - k) * a ^ k by rw [← pow_add, Nat.sub_add_cancel he]]
    field_simp
  have hnn : (0 : ℝ) ≤ 2 * ((a : ℝ) * ((b : ℝ) / a) ^ ((k : ℝ) / n)) := by positivity
  unfold comparePower
  simp only
  rw [compare_gt_iff_gt, compare_eq_iff_eq, ← Nat.cast_lt (α := ℝ), ← Nat.cast_inj (R := ℝ), hpow, Nat.cast_pow,
    pow_lt_pow_iff_left₀ (by positivity) hnn h0.ne', pow_left_inj₀ hnn (by positivity) h0.ne', eq_comm]
  exact ⟨Iff.rfl, Iff.rfl⟩

theorem halfTurns_zero (c : Nat) : halfTurns c 0 = (0, 1, 0) := by with_unfolding_all rfl

theorem halfTurns_succ (c k : Nat) : halfTurns c (k + 1) = turnStep c (halfTurns c k) := by with_unfolding_all rfl

/-- What `halfTurns` holds after `k` turns by the angle `t` in (0, pi/2] with `2^151 * cos t = c`. -/
theorem halfTurns_spec {c : Nat} {t : ℝ} (h0 : 0 < t) (h1 : t ≤ Real.pi / 2) (hc : 2 ^ 151 * Real.cos t = c) (k : Nat) :
    ((halfTurns c k).1 : ℝ) * (2 ^ 150 * Real.sin t) = (2 ^ 150) ^ k * Real.sin (k * t) ∧
    ((halfTurns c k).2.1 : ℝ) * Real.sin t = (2 ^ 150) ^ k * Real.sin ((k + 1) * t) ∧
    ((halfTurns c k).2.2 : ℝ) * Real.pi ≤ k * t ∧ k * t < ((halfTurns c k).2.2 + 1) * Real.pi := by
  have hpi := Real.pi_pos
  have hS : 0 < Real.sin t := Real.sin_pos_of_pos_of_lt_pi h0 (by linarith)
  induction k with
  | zero =>
    rw [halfTurns_zero]
    simp [hpi]
  | succ k ih =>
    rw [halfTurns_succ]
    obtain ⟨i1, i2, i3, i4⟩ := ih
    unfold turnStep
    generalize (halfTurns c k).1 = a at *
    generalize (halfTurns c k).2.1 = b at *
    generalize (halfTurns c k).2.2 = h at *
    have hadd : Real.sin ((k + 1 + 1) * t) = 2 * Real.cos t * Real.sin ((k + 1) * t) - Real.sin (k * t) := by
      rw [show ((k : ℝ) + 1 + 1) * t = (k + 1) * t + t by ring, show (k : ℝ) * t = (k + 1) * t - t by ring, Real.sin_add,
        Real.sin_sub]
      ring
    have hu := Real.sin_sub_nat_mul_pi ((k + 1) * t) h
    have hsin : Real.sin ((k + 1) * t) = (b : ℝ) * (Real.sin t / (2 ^ 150) ^ k) := by
      rw [← mul_div_assoc, i2]
      field_simp
    have sgn : ∀ z : Int, 0 ≤ (z : ℝ) * (Real.sin t / (2 ^ 150) ^ k) ↔ 0 ≤ z := fun z => by
      rw [mul_nonneg_iff_of_pos_right (by positivity), Int.cast_nonneg_iff]
    have hturn : (if h % 2 = 0 then b ≤ 0 else 0 ≤ b) ↔ Real.sin ((k + 1) * t - h * Real.pi) ≤ 0 := by
      rw [hu, hsin]
      split
      · rename_i hev
        rw [(Nat.even_iff.2 hev).neg_one_pow, one_mul, ← neg_nonneg, ← sgn, Int.cast_neg, neg_mul, neg_nonneg]
      · rename_i hev
        rw [(Nat.odd_iff.2 (by omega)).neg_one_pow, neg_one_mul, neg_nonpos, sgn]
    refine ⟨?_, ?_, ?_⟩
    · push_cast
      rw [pow_succ, mul_left_comm, i2]
      ring
    · push_cast
      rw [hadd, ← hc, pow_succ]
      linear_combination (2 ^ 151 * Real.cos t) * i2 - 2 ^ 150 * i1
    · simp only [hturn]
      push_cast
      set u := ((k : ℝ) + 1) * t - h * Real.pi with hud
      split
      · rename_i hs
        have : Real.pi ≤ u := by
          by_contra hc
          exact absurd (Real.sin_pos_of_pos_of_lt_pi (by linarith) (not_le.1 hc)) (not_lt.2 hs)
        constructor <;> linarith
      · rename_i hs
        have : u < Real.pi := by
          by_contra hc
          have h2 : 0 ≤ Real.sin (u - Real.pi) :=
            Real.sin_nonneg_of_nonneg_of_le_pi (by linarith [not_lt.1 hc]) (by linarith)
          rw [Real.sin_sub_pi] at h2
          exact hs (by linarith)
        constructor <;> linarith

/-- `compareSine` compares `2^151 * sin(pi * r/b)` with `c`. -/
theorem compareSine_spec {r b : Nat} (hb : 0 < b) (hr : 2 * r ≤ b) (c : Nat) :
    (compareSine r b c = .gt ↔ (c : ℝ) < 2 ^ 151 * Real.sin (Real.pi * (r / b))) ∧
    (compareSine r b c = .eq ↔ (c : ℝ) = 2 ^ 151 * Real.sin (Real.pi * (r / b))) := by
  have hpi := Real.pi_pos
  have hbR : (0 : ℝ) < b := by exact_mod_cast hb
  have hrR : 2 * (r : ℝ) ≤ b := by exact_mod_cast hr
  have hM : ((b - 2 * r : Nat) : ℝ) = b - 2 * r := by push_cast [hr]; ring
  have hcos : Real.sin (Real.pi * (r / b)) = Real.cos ((b - 2 * r) * Real.pi / (2 * b)) := by
    rw [← Real.cos_pi_div_two_sub]
    congr 1
    field_simp
  have hθ : 0 ≤ (b - 2 * r) * Real.pi / (2 * b) ∧ (b - 2 * r) * Real.pi / (2 * b) ≤ Real.pi / 2 := by
    constructor
    · have : 0 ≤ (b : ℝ) - 2 * r := by linarith
      positivity
    · rw [div_le_div_iff₀ (by positivity) (by norm_num)]
      have : 0 ≤ (r : ℝ) * Real.pi := by positivity
      nlinarith
  rw [hcos]
  generalize hθd : (b - 2 * (r : ℝ)) * Real.pi / (2 * b) = θ at *
  have hMθ : ((b - 2 * r : Nat) : ℝ) * Real.pi = 2 * b * θ := by
    rw [hM, ← hθd]
    field_simp
  have hle := Real.cos_le_one θ
  unfold compareSine
  split
  · rename_i h
    have : (2 ^ 151 : ℝ) < c := by exact_mod_cast h
    simp only [reduceCtorEq, false_iff]
    constructor <;> intro h <;> nlinarith
  · split
    · rename_i h
      have hone : Real.cos θ = 1 ↔ 2 * r = b := by
        rw [Real.cos_eq_one_iff_of_lt_of_lt (by linarith) (by linarith)]
        constructor
        · intro h
          rw [h, mul_zero] at hMθ
          have : b - 2 * r = 0 := by exact_mod_cast (mul_eq_zero.1 hMθ).resolve_right hpi.ne'
          omega
        · intro h
          rw [show b - 2 * r = 0 by omega, Nat.cast_zero, zero_mul] at hMθ
          exact (mul_eq_zero.1 hMθ.symm).resolve_left (by positivity)
      rw [compare_gt_iff_gt, compare_eq_iff_eq, h, ← hone]
      push_cast
      refine ⟨⟨fun h => absurd h (by omega), fun h => by nlinarith⟩, ⟨fun h => by rw [h]; norm_num, fun h => ?_⟩⟩
      linarith
    · rename_i h1 h2
      have hc0 : (0 : ℝ) ≤ c / 2 ^ 151 := by positivity
      have hc1 : (c : ℝ) / 2 ^ 151 < 1 := by
        rw [div_lt_one (by positivity)]
        exact_mod_cast (by omega : c < 2 ^ 151)
      have ht0 := Real.arccos_pos.2 hc1
      have ht1 := Real.arccos_le_pi_div_two.2 hc0
      have hct : 2 ^ 151 * Real.cos (Real.arccos (c / 2 ^ 151)) = c := by
        rw [Real.cos_arccos (by linarith) hc1.le]
        field_simp
      generalize Real.arccos ((c : ℝ) / 2 ^ 151) = t at *
      have hS : 0 < Real.sin t := Real.sin_pos_of_pos_of_lt_pi ht0 (by linarith)
      obtain ⟨s1, -, s3, s4⟩ := halfTurns_spec ht0 ht1 hct (2 * b)
      generalize (halfTurns c (2 * b)).1 = v at *
      generalize (halfTurns c (2 * b)).2.2 = h at *
      push_cast at s1 s3 s4
      have hlt : (c : ℝ) < 2 ^ 151 * Real.cos θ ↔ θ < t := by
        rw [← hct, mul_lt_mul_iff_right₀ (by positivity)]
        exact Real.strictAntiOn_cos.lt_iff_gt ⟨by linarith, by linarith⟩ ⟨by linarith, by linarith⟩
      have heq : (c : ℝ) = 2 ^ 151 * Real.cos θ ↔ θ = t := by
        rw [← hct, mul_right_inj' (by positivity), eq_comm]
        exact Real.injOn_cos.eq_iff ⟨by linarith, by linarith⟩ ⟨by linarith, by linarith⟩
      rw [hlt, heq]
      generalize b - 2 * r = M at *
      have hbt : ∀ x y : ℝ, 2 * b * x < 2 * b * y ↔ x < y := fun x y => mul_lt_mul_iff_right₀ (by positivity)
      rcases lt_trichotomy h M with hlt | rfl | hgt
      · rw [compare_lt_iff_lt.2 hlt]
        have h1 : ((h : ℝ) + 1) * Real.pi ≤ M * Real.pi := by
          gcongr
          exact_mod_cast hlt
        have := (hbt t θ).1 (by linarith)
        simp only [reduceCtorEq, false_iff]
        constructor <;> intro h <;> linarith
      · rw [compare_eq_iff_eq.2 rfl]
        have h1 : θ ≤ t := by
          by_contra hc
          have := (hbt t θ).2 (not_le.1 hc)
          linarith
        have hv : v = 0 ↔ θ = t := by
          have e : v = 0 ↔ Real.sin (2 * b * t) = 0 := by
            rw [← Int.cast_eq_zero (α := ℝ)]
            constructor
            · intro h
              rw [h, zero_mul] at s1
              exact (mul_eq_zero.1 s1.symm).resolve_left (by positivity)
            · intro h
              rw [h, mul_zero] at s1
              exact (mul_eq_zero.1 s1).resolve_right (by positivity)
          rw [e]
          constructor
          · intro h0
            by_contra hne
            have h2 := (hbt θ t).2 (lt_of_le_of_ne h1 hne)
            have h3 := Real.sin_sub_nat_mul_pi (2 * b * t) h
            rw [h0, mul_zero] at h3
            exact absurd h3 (Real.sin_pos_of_pos_of_lt_pi (by linarith) (by linarith)).ne'
          · rintro rfl
            rw [← hMθ]
            exact Real.sin_nat_mul_pi h
        by_cases h0 : v = 0
        · simp only [h0, if_true, reduceCtorEq, false_iff, true_iff]
          rw [hv.1 h0]
          exact ⟨lt_irrefl t, rfl⟩
        · simp only [h0, if_false, true_iff, reduceCtorEq, false_iff]
          exact ⟨lt_of_le_of_ne h1 fun e => h0 (hv.2 e), fun e => h0 (hv.2 e)⟩
      · rw [compare_gt_iff_gt.2 hgt]
        have h1 : ((M : ℝ) + 1) * Real.pi ≤ h * Real.pi := by
          gcongr
          exact_mod_cast hgt
        have := (hbt θ t).1 (by linarith)
        simp only [reduceCtorEq, true_iff, false_iff]
        exact ⟨this, this.ne⟩

end Sys2Proof.Machine
end

