-- ==== Sys2Proof/Laws/Numerics.lean ====
section
/-! SUPPORT. The enclosures of the reference EXPMAP and COEF hold the exact real values (R124, R125): integer square roots,
powers by repeated square roots, the Taylor series of the sine from both sides, and the bounds of pi. -/

namespace Sys2Proof.Machine

theorem sqrtAbove_spec (n : Nat) : n ≤ sqrtAbove n * sqrtAbove n := by
  unfold sqrtAbove
  split
  · assumption
  · nlinarith

theorem sqrtBelow_spec (n : Nat) : sqrtBelow n * sqrtBelow n ≤ n := by
  unfold sqrtBelow
  have hU := sqrtAbove_spec n
  rcases Nat.eq_zero_or_pos (sqrtAbove n) with h0 | hu
  · simp [h0]
  have hL := Nat.div_mul_le_self n (sqrtAbove n)
  generalize sqrtAbove n = u at *
  generalize n / u = l at *
  rcases Nat.le_total l u with h | h
  · exact le_trans (Nat.mul_le_mul_left _ h) hL
  · have h1 : u * u ≤ l * u := Nat.mul_le_mul_right _ h
    rw [Nat.eq_of_mul_eq_mul_right hu (show l * u = u * u by omega)]
    omega

theorem powEnclosure_zero (num den k : Nat) (v : Nat × Nat) : powEnclosure num den 0 k v = v := by
  with_unfolding_all rfl

theorem powEnclosure_succ (num den j k : Nat) (v : Nat × Nat) :
    powEnclosure num den (j + 1) k v = powEnclosure num den j (k / 2)
      (if k % 2 = 1 then
        (sqrtBelow (v.1 * 2 ^ powBits * num / den), sqrtAbove (v.2 * 2 ^ powBits * num / den + 1))
      else (sqrtBelow (v.1 * 2 ^ powBits), sqrtAbove (v.2 * 2 ^ powBits))) := by
  with_unfolding_all rfl

/-- From an enclosure of the power of `t` to one of the power of `(b + t) / 2`. -/
theorem sqrt_enclosure {x y : ℝ} {lo hi : Nat} (hx : 0 ≤ x) (hxy : x * x = y) (hlo : (lo : ℝ) ≤ y) (hhi : y ≤ hi) :
    (sqrtBelow lo : ℝ) ≤ x ∧ x ≤ (sqrtAbove hi : ℝ) := by
  have h1 : ((sqrtBelow lo : ℝ)) * sqrtBelow lo ≤ lo := by exact_mod_cast sqrtBelow_spec lo
  have h2 : (hi : ℝ) ≤ (sqrtAbove hi : ℝ) * sqrtAbove hi := by exact_mod_cast sqrtAbove_spec hi
  have p1 : (0 : ℝ) ≤ sqrtBelow lo := by positivity
  have p2 : (0 : ℝ) ≤ sqrtAbove hi := by positivity
  constructor
  · exact (mul_self_le_mul_self_iff p1 hx).2 (by linarith)
  · exact (mul_self_le_mul_self_iff hx p2).2 (by linarith)

/-- The enclosure of a power by repeated square roots: the exponent is `t` behind the `j` bits of `k`. -/
theorem powEnclosure_spec {num den : Nat} (hn : 0 < num) (hd : 0 < den) (j : Nat) :
    ∀ (k : Nat) (t : ℝ) (v : Nat × Nat),
      (v.1 : ℝ) ≤ 2 ^ powBits * ((num : ℝ) / den) ^ t → 2 ^ powBits * ((num : ℝ) / den) ^ t ≤ v.2 →
      ((powEnclosure num den j k v).1 : ℝ) ≤ 2 ^ powBits * ((num : ℝ) / den) ^ (((k % 2 ^ j : Nat) + t) / 2 ^ j) ∧
      2 ^ powBits * ((num : ℝ) / den) ^ (((k % 2 ^ j : Nat) + t) / 2 ^ j) ≤ (powEnclosure num den j k v).2 := by
  have hnR : (0 : ℝ) < num := by exact_mod_cast hn
  have hdR : (0 : ℝ) < den := by exact_mod_cast hd
  have hr : (0 : ℝ) < (num : ℝ) / den := by positivity
  induction j with
  | zero =>
    intro k t v h1 h2
    simp only [powEnclosure_zero, pow_zero, Nat.mod_one, Nat.cast_zero, zero_add, div_one]
    exact ⟨h1, h2⟩
  | succ j ih =>
    intro k t v h1 h2
    rw [powEnclosure_succ]
    have hexp : ((k % 2 ^ (j + 1) : Nat) + t) / 2 ^ (j + 1) =
        (((k / 2 % 2 ^ j : Nat) : ℝ) + ((k % 2 : Nat) + t) / 2) / 2 ^ j := by
      have : k % 2 ^ (j + 1) = 2 * (k / 2 % 2 ^ j) + k % 2 := by
        rw [pow_succ', Nat.mod_mul]
        omega
      rw [this]
      push_cast
      rw [pow_succ]
      field_simp
      ring
    rw [hexp]
    have hx : (0 : ℝ) ≤ 2 ^ powBits * ((num : ℝ) / den) ^ (((k % 2 : Nat) + t) / 2) := by positivity
    have hsq : (2 ^ powBits * ((num : ℝ) / den) ^ (((k % 2 : Nat) + t) / 2)) *
        (2 ^ powBits * ((num : ℝ) / den) ^ (((k % 2 : Nat) + t) / 2)) =
        2 ^ powBits * (2 ^ powBits * ((num : ℝ) / den) ^ t) * ((num : ℝ) / den) ^ ((k % 2 : Nat) : ℝ) := by
      rw [show ∀ u w : ℝ, u * w * (u * w) = u * (u * (w * w)) from fun u w => by ring, ← Real.rpow_add hr,
        show (((k % 2 : Nat) : ℝ) + t) / 2 + (((k % 2 : Nat) : ℝ) + t) / 2 = t + ((k % 2 : Nat) : ℝ) by ring,
        Real.rpow_add hr]
      ring
    have hpow : (0 : ℝ) < 2 ^ powBits := by positivity
    split
    · rename_i hk
      rw [hk, Nat.cast_one] at hsq hx ⊢
      rw [Real.rpow_one] at hsq
      have e := sqrt_enclosure (lo := v.1 * 2 ^ powBits * num / den) (hi := v.2 * 2 ^ powBits * num / den + 1) hx hsq
        (by
          calc ((v.1 * 2 ^ powBits * num / den : Nat) : ℝ) ≤ ((v.1 * 2 ^ powBits * num : Nat) : ℝ) / den :=
                Nat.cast_div_le
            _ = 2 ^ powBits * v.1 * ((num : ℝ) / den) := by push_cast; ring
            _ ≤ _ := by gcongr)
        (by
          have h3 : ((v.2 * 2 ^ powBits * num : Nat) : ℝ) / den < ((v.2 * 2 ^ powBits * num / den + 1 : Nat) : ℝ) := by
            rw [div_lt_iff₀ hdR]
            have h4 := Nat.lt_mul_div_succ (v.2 * 2 ^ powBits * num) hd
            rw [Nat.mul_comm den] at h4
            exact_mod_cast h4
          calc 2 ^ powBits * (2 ^ powBits * ((num : ℝ) / den) ^ t) * ((num : ℝ) / den)
              ≤ 2 ^ powBits * v.2 * ((num : ℝ) / den) := by gcongr
            _ = ((v.2 * 2 ^ powBits * num : Nat) : ℝ) / den := by push_cast; ring
            _ ≤ _ := h3.le)
      exact ih (k / 2) _ _ e.1 e.2
    · rename_i hk
      have hk0 : k % 2 = 0 := by omega
      rw [hk0, Nat.cast_zero] at hsq hx ⊢
      rw [Real.rpow_zero, mul_one] at hsq
      have e := sqrt_enclosure (lo := v.1 * 2 ^ powBits) (hi := v.2 * 2 ^ powBits) hx hsq
        (by push_cast; nlinarith) (by push_cast; nlinarith)
      exact ih (k / 2) _ _ e.1 e.2

theorem sinSeries_zero (a2 d2 k : Nat) : sinSeries a2 d2 0 k = (1, 1) := by
  with_unfolding_all rfl

theorem sinSeries_succ (a2 d2 n k : Nat) :
    sinSeries a2 d2 (n + 1) k = sinLevel a2 d2 ((2 * k + 2) * (2 * k + 3)) (sinSeries a2 d2 n (k + 1)) := by
  with_unfolding_all rfl

/-- The nested series is the partial sum of the series of sin(t)/t from term `k` on, scaled to start at 1. -/
theorem sinSeries_spec {a2 d2 : Nat} (hd : 0 < d2) (ha : a2 ≤ 6 * d2) (n : Nat) :
    ∀ k : Nat, (sinSeries a2 d2 n k).1 ≤ (sinSeries a2 d2 n k).2 ∧ 0 < (sinSeries a2 d2 n k).2 ∧
      ((sinSeries a2 d2 n k).1 : ℝ) / (sinSeries a2 d2 n k).2 =
        ∑ i ∈ Finset.range (n + 1),
          (-1) ^ i * ((a2 : ℝ) / d2) ^ i * ((2 * k + 1).factorial : ℝ) / ((2 * k + 1 + 2 * i).factorial : ℝ) := by
  have hdR : (0 : ℝ) < d2 := by exact_mod_cast hd
  induction n with
  | zero =>
    intro k
    rw [sinSeries_zero]
    refine ⟨le_refl _, Nat.one_pos, ?_⟩
    have : ((2 * k + 1).factorial : ℝ) ≠ 0 := by exact_mod_cast Nat.factorial_ne_zero _
    simp [this]
  | succ n ih =>
    intro k
    obtain ⟨h1, h2, h3⟩ := ih (k + 1)
    rw [sinSeries_succ]
    unfold sinLevel
    generalize (sinSeries a2 d2 n (k + 1)).1 = x at *
    generalize (sinSeries a2 d2 n (k + 1)).2 = y at *
    have hc : 6 ≤ (2 * k + 2) * (2 * k + 3) := by nlinarith
    have hle : a2 * x ≤ (2 * k + 2) * (2 * k + 3) * d2 * y :=
      Nat.mul_le_mul (le_trans ha (Nat.mul_le_mul_right _ hc)) h1
    have hpos : 0 < (2 * k + 2) * (2 * k + 3) * d2 * y := by positivity
    refine ⟨Nat.sub_le _ _, hpos, ?_⟩
    have hyR : (0 : ℝ) < y := by exact_mod_cast h2
    simp only
    rw [Nat.cast_sub hle, Finset.sum_range_succ']
    have step : ∀ i : Nat, (-1 : ℝ) ^ (i + 1) * ((a2 : ℝ) / d2) ^ (i + 1) * ((2 * k + 1).factorial : ℝ) /
        ((2 * k + 1 + 2 * (i + 1)).factorial : ℝ) =
        -((a2 : ℝ) / d2) / ((2 * k + 2) * (2 * k + 3)) *
          ((-1) ^ i * ((a2 : ℝ) / d2) ^ i * ((2 * (k + 1) + 1).factorial : ℝ) /
            ((2 * (k + 1) + 1 + 2 * i).factorial : ℝ)) := by
      intro i
      have e1 : (2 * (k + 1) + 1).factorial = (2 * k + 3) * ((2 * k + 2) * (2 * k + 1).factorial) := by
        rw [show 2 * (k + 1) + 1 = (2 * k + 2) + 1 by ring, Nat.factorial_succ, Nat.factorial_succ]
      have e2 : 2 * k + 1 + 2 * (i + 1) = 2 * (k + 1) + 1 + 2 * i := by ring
      rw [e1, e2]
      have : ((2 * (k + 1) + 1 + 2 * i).factorial : ℝ) ≠ 0 := by exact_mod_cast Nat.factorial_ne_zero _
      push_cast
      rw [pow_succ ((a2 : ℝ) / d2), pow_succ (-1 : ℝ)]
      field_simp
    simp only [step]
    rw [← Finset.mul_sum, ← h3]
    have : ((2 * k + 1).factorial : ℝ) ≠ 0 := by exact_mod_cast Nat.factorial_ne_zero _
    push_cast
    simp only [pow_zero, Nat.add_zero, mul_one, one_mul]
    rw [div_self this]
    field_simp
    ring

/-- The partial sums of the sine's series, from the nested form. -/
theorem sin_partial {a d : Nat} (hd : 0 < d) (ha : a * a ≤ 6 * (d * d)) (n : Nat) :
    ((a : ℝ) / d) * (((sinSeries (a * a) (d * d) n 0).1 : ℝ) / (sinSeries (a * a) (d * d) n 0).2) =
      ∑ i ∈ Finset.range (n + 1), (-1) ^ i * (((a : ℝ) / d) ^ (2 * i + 1) / ((2 * i + 1).factorial : ℝ)) := by
  rw [(sinSeries_spec (by positivity) ha n 0).2.2, Finset.mul_sum]
  apply Finset.sum_congr rfl
  intro i _
  push_cast
  rw [show 2 * 0 + 1 + 2 * i = 2 * i + 1 by ring]
  simp only [Nat.factorial_one, Nat.cast_one, mul_one]
  rw [show ((a : ℝ) * a / (d * d)) = ((a : ℝ) / d) ^ 2 by ring, ← pow_mul]
  ring

/-- The two partial sums the model uses lie below and above the sine, for angles in [0, 2]. -/
theorem sin_bounds {a d : Nat} (hd : 0 < d) (ha : a ≤ 2 * d) :
    ((a : ℝ) / d) * (((sinRatioBelow a d).1 : ℝ) / (sinRatioBelow a d).2) ≤ Real.sin ((a : ℝ) / d) ∧
    Real.sin ((a : ℝ) / d) ≤ ((a : ℝ) / d) * (((sinRatioAbove a d).1 : ℝ) / (sinRatioAbove a d).2) := by
  have h6 : a * a ≤ 6 * (d * d) := by nlinarith
  unfold sinRatioBelow sinRatioAbove
  rw [sin_partial hd h6, sin_partial hd h6]
  set t : ℝ := (a : ℝ) / d with ht
  have ht0 : 0 ≤ t := by positivity
  have ht2 : t ≤ 2 := by
    rw [ht, div_le_iff₀ (by exact_mod_cast hd)]
    exact_mod_cast ha
  have hanti : Antitone fun i : Nat => t ^ (2 * i + 1) / ((2 * i + 1).factorial : ℝ) := by
    apply antitone_nat_of_succ_le
    intro i
    rw [show 2 * (i + 1) + 1 = (2 * i + 1) + 1 + 1 by ring, Nat.factorial_succ, Nat.factorial_succ]
    push_cast
    have hf : (0 : ℝ) < ((2 * i + 1).factorial : ℝ) := by exact_mod_cast Nat.factorial_pos _
    rw [div_le_div_iff₀ (by positivity) hf]
    have hp : 0 ≤ t ^ (2 * i + 1) := by positivity
    have h4 : t * t ≤ (2 * (i : ℝ) + 1 + 1 + 1) * (2 * i + 1 + 1) := by
      have : (0 : ℝ) ≤ i := by positivity
      nlinarith
    calc t ^ (2 * i + 1 + 1 + 1) * ((2 * i + 1).factorial : ℝ)
        = (t * t) * (t ^ (2 * i + 1) * ((2 * i + 1).factorial : ℝ)) := by ring
      _ ≤ (2 * (i : ℝ) + 1 + 1 + 1) * (2 * i + 1 + 1) * (t ^ (2 * i + 1) * ((2 * i + 1).factorial : ℝ)) := by gcongr
      _ = _ := by ring
  have hsum : Filter.Tendsto (fun n => ∑ i ∈ Finset.range n, (-1) ^ i * (t ^ (2 * i + 1) / ((2 * i + 1).factorial : ℝ)))
      Filter.atTop (nhds (Real.sin t)) := by
    have := (Real.hasSum_sin t).tendsto_sum_nat
    refine this.congr fun n => Finset.sum_congr rfl fun i _ => by ring
  exact ⟨hanti.alternating_series_le_tendsto hsum 18, hanti.tendsto_le_alternating_series hsum 17⟩

/-- The first `n` terms of the series of arctan(1/m). -/
def arctanSum (m : Nat) : Nat → ℚ
  | 0 => 0
  | n + 1 => arctanSum m n + mkRat ((-1) ^ n) ((2 * n + 1) * m ^ (2 * n + 1))

theorem arctanSum_eq {m : Nat} (hm : 0 < m) (n : Nat) :
    (arctanSum m n : ℝ) =
      ∑ i ∈ Finset.range n, (-1) ^ i * (((m : ℝ)⁻¹) ^ (2 * i + 1) / ((2 * i + 1 : Nat) : ℝ)) := by
  induction n with
  | zero => simp [arctanSum]
  | succ n ih =>
    rw [arctanSum, Finset.sum_range_succ, ← ih, Rat.cast_add, Rat.mkRat_eq_div]
    push_cast
    have : (m : ℝ) ≠ 0 := by exact_mod_cast hm.ne'
    congr 1
    rw [inv_pow]
    field_simp

/-- The partial sums of an arctangent's series lie on alternate sides of it. -/
theorem arctan_bounds {m : Nat} (hm : 1 < m) (k : Nat) :
    (arctanSum m (2 * k) : ℝ) ≤ Real.arctan (m : ℝ)⁻¹ ∧ Real.arctan (m : ℝ)⁻¹ ≤ arctanSum m (2 * k + 1) := by
  have hmR : (1 : ℝ) < m := by exact_mod_cast hm
  have hx0 : (0 : ℝ) ≤ (m : ℝ)⁻¹ := by positivity
  have hx1 : (m : ℝ)⁻¹ < 1 := inv_lt_one_of_one_lt₀ hmR
  have hanti : Antitone fun i : Nat => ((m : ℝ)⁻¹) ^ (2 * i + 1) / ((2 * i + 1 : Nat) : ℝ) := by
    apply antitone_nat_of_succ_le
    intro i
    have : ((m : ℝ)⁻¹) ^ (2 * (i + 1) + 1) ≤ ((m : ℝ)⁻¹) ^ (2 * i + 1) :=
      pow_le_pow_of_le_one hx0 hx1.le (by omega)
    have h2 : ((2 * i + 1 : Nat) : ℝ) ≤ ((2 * (i + 1) + 1 : Nat) : ℝ) := by exact_mod_cast (by omega)
    have h3 : (0 : ℝ) < ((2 * i + 1 : Nat) : ℝ) := by positivity
    gcongr
  have hsum : Filter.Tendsto (fun n => ∑ i ∈ Finset.range n, (-1) ^ i * (((m : ℝ)⁻¹) ^ (2 * i + 1) / ((2 * i + 1 : Nat) : ℝ)))
      Filter.atTop (nhds (Real.arctan (m : ℝ)⁻¹)) := by
    have := (Real.hasSum_arctan (x := (m : ℝ)⁻¹) (by rwa [Real.norm_of_nonneg hx0])).tendsto_sum_nat
    refine this.congr fun n => Finset.sum_congr rfl fun i _ => by push_cast; ring
  rw [arctanSum_eq (by omega), arctanSum_eq (by omega)]
  exact ⟨hanti.alternating_series_le_tendsto hsum k, hanti.tendsto_le_alternating_series hsum k⟩

theorem piBelow_le_machin : (piBelow : ℚ) ≤ 2 ^ piBits * (4 * (4 * arctanSum 5 112 - arctanSum 239 35)) := by
  decide +kernel

theorem machin_le_piBelow : 2 ^ piBits * (4 * (4 * arctanSum 5 113 - arctanSum 239 34)) ≤ (piBelow : ℚ) + 1 := by
  decide +kernel

/-- `piBelow` is pi to 256 fractional bits, rounded down: by Machin's formula and its series. -/
theorem pi_bounds : (piBelow : ℝ) / 2 ^ piBits ≤ Real.pi ∧ Real.pi ≤ ((piBelow : ℝ) + 1) / 2 ^ piBits := by
  have hM := Real.four_mul_arctan_inv_5_sub_arctan_inv_239
  have h5 := arctan_bounds (m := 5) (by norm_num) 56
  have h239 := arctan_bounds (m := 239) (by norm_num) 17
  norm_num only [Nat.cast_ofNat] at h5 h239
  have h1 : ((piBelow : ℚ) : ℝ) ≤ ((2 ^ piBits * (4 * (4 * arctanSum 5 112 - arctanSum 239 35)) : ℚ) : ℝ) := by
    exact_mod_cast piBelow_le_machin
  have h2 : ((2 ^ piBits * (4 * (4 * arctanSum 5 113 - arctanSum 239 34)) : ℚ) : ℝ) ≤ (((piBelow : ℚ) + 1 : ℚ) : ℝ) := by
    exact_mod_cast machin_le_piBelow
  push_cast at h1 h2
  have hp : (0 : ℝ) < 2 ^ piBits := by positivity
  constructor
  · rw [div_le_iff₀ hp]
    calc (piBelow : ℝ) ≤ 2 ^ piBits * (4 * (4 * (arctanSum 5 112 : ℝ) - arctanSum 239 35)) := h1
      _ ≤ 2 ^ piBits * Real.pi := by
        apply mul_le_mul_of_nonneg_left _ hp.le
        linarith [h5.1, h239.2]
      _ = Real.pi * 2 ^ piBits := mul_comm _ _
  · rw [le_div_iff₀ hp]
    calc Real.pi * 2 ^ piBits = 2 ^ piBits * Real.pi := mul_comm _ _
      _ ≤ 2 ^ piBits * (4 * (4 * (arctanSum 5 113 : ℝ) - arctanSum 239 34)) := by
        apply mul_le_mul_of_nonneg_left _ hp.le
        linarith [h5.2, h239.1]
      _ ≤ (piBelow : ℝ) + 1 := h2

/-- The denominators of the series are positive at the angles of the first quarter turn. -/
theorem sinRatio_pos {r b : Nat} (hb : 0 < b) (hr : 2 * r ≤ b) :
    0 < (sinRatioBelow (piBelow * r) (2 ^ piBits * b)).2 ∧ 0 < (sinRatioAbove (piBelow * r) (2 ^ piBits * b)).2 := by
  have hp : piBelow ≤ 4 * 2 ^ piBits := by decide +kernel
  have h2 : piBelow * r ≤ 2 * (2 ^ piBits * b) := by
    calc piBelow * r ≤ 4 * 2 ^ piBits * r := Nat.mul_le_mul_right _ hp
      _ = 2 * 2 ^ piBits * (2 * r) := by ring
      _ ≤ 2 * 2 ^ piBits * b := Nat.mul_le_mul_left _ hr
      _ = _ := by ring
  have h6 : (piBelow * r) * (piBelow * r) ≤ 6 * ((2 ^ piBits * b) * (2 ^ piBits * b)) := by
    calc _ ≤ (2 * (2 ^ piBits * b)) * (2 * (2 ^ piBits * b)) := Nat.mul_le_mul h2 h2
      _ = 4 * ((2 ^ piBits * b) * (2 ^ piBits * b)) := by ring
      _ ≤ _ := Nat.mul_le_mul_right _ (by norm_num)
  exact ⟨(sinSeries_spec (by positivity) h6 35 0).2.1, (sinSeries_spec (by positivity) h6 34 0).2.1⟩

/-- Both ends of the sine's enclosure, in units of 2^-149, for an angle of at most a quarter turn. -/
theorem sine_enclosure {r b : Nat} (hb : 0 < b) (hr : 2 * r ≤ b) :
    ((2 ^ 150 * (piBelow * r) * (sinRatioBelow (piBelow * r) (2 ^ piBits * b)).1 : Nat) : ℝ) /
        ((2 ^ piBits * b * (sinRatioBelow (piBelow * r) (2 ^ piBits * b)).2 : Nat) : ℝ)
      ≤ 2 ^ 149 * (2 * Real.sin (Real.pi * (r / b))) ∧
    2 ^ 149 * (2 * Real.sin (Real.pi * (r / b))) ≤
      ((2 ^ 150 * (piBelow * r * (sinRatioAbove (piBelow * r) (2 ^ piBits * b)).1 * 2 ^ piBits
        + 2 ^ piBits * b * (sinRatioAbove (piBelow * r) (2 ^ piBits * b)).2) : Nat) : ℝ) /
        ((2 ^ piBits * b * (sinRatioAbove (piBelow * r) (2 ^ piBits * b)).2 * 2 ^ piBits : Nat) : ℝ) := by
  have hbR : (0 : ℝ) < b := by exact_mod_cast hb
  have hP : (0 : ℝ) < 2 ^ piBits := by positivity
  have hd : 0 < 2 ^ piBits * b := by positivity
  obtain ⟨pi1, pi2⟩ := pi_bounds
  have hrb : (r : ℝ) / b ≤ 1 / 2 := by
    rw [div_le_div_iff₀ hbR (by norm_num)]
    exact_mod_cast (by omega : r * 2 ≤ 1 * b)
  have hrb0 : (0 : ℝ) ≤ (r : ℝ) / b := by positivity
  have ha : piBelow * r ≤ 2 * (2 ^ piBits * b) := by
    have h4 : piBelow ≤ 4 * 2 ^ piBits := by decide +kernel
    nlinarith
  have hS := sin_bounds hd ha
  have h6 : piBelow * r * (piBelow * r) ≤ 6 * (2 ^ piBits * b * (2 ^ piBits * b)) := by
    have := Nat.mul_le_mul ha ha
    have e : 2 * (2 ^ piBits * b) * (2 * (2 ^ piBits * b)) = 4 * (2 ^ piBits * b * (2 ^ piBits * b)) := by ring
    omega
  have hτ : ((piBelow * r : Nat) : ℝ) / ((2 ^ piBits * b : Nat) : ℝ) = (piBelow : ℝ) / 2 ^ piBits * (r / b) := by
    push_cast
    field_simp
  have yb := (sinSeries_spec (a2 := piBelow * r * (piBelow * r)) (d2 := 2 ^ piBits * b * (2 ^ piBits * b))
    (by positivity) h6 35 0).2.1
  have ya := (sinSeries_spec (a2 := piBelow * r * (piBelow * r)) (d2 := 2 ^ piBits * b * (2 ^ piBits * b))
    (by positivity) h6 34 0).2.1
  change 0 < (sinRatioBelow (piBelow * r) (2 ^ piBits * b)).2 at yb
  change 0 < (sinRatioAbove (piBelow * r) (2 ^ piBits * b)).2 at ya
  generalize (sinRatioBelow (piBelow * r) (2 ^ piBits * b)) = lo at *
  generalize (sinRatioAbove (piBelow * r) (2 ^ piBits * b)) = hi at *
  have ybR : (0 : ℝ) < lo.2 := by exact_mod_cast yb
  have yaR : (0 : ℝ) < hi.2 := by exact_mod_cast ya
  rw [hτ] at hS
  set τ : ℝ := (piBelow : ℝ) / 2 ^ piBits * (r / b) with hτdef
  have hτ0 : 0 ≤ τ := by positivity
  have hτ1 : τ ≤ Real.pi * (r / b) := by
    rw [hτdef]
    exact mul_le_mul_of_nonneg_right pi1 hrb0
  have hτ2 : Real.pi * (r / b) - τ ≤ 1 / 2 ^ piBits := by
    have : Real.pi - (piBelow : ℝ) / 2 ^ piBits ≤ 1 / 2 ^ piBits := by
      have : ((piBelow : ℝ) + 1) / 2 ^ piBits = (piBelow : ℝ) / 2 ^ piBits + 1 / 2 ^ piBits := by ring
      linarith
    have h0 : (0 : ℝ) < 1 / 2 ^ piBits := by positivity
    rw [hτdef, ← sub_mul]
    nlinarith
  have hquarter : Real.pi * (r / b) ≤ Real.pi / 2 := by nlinarith [Real.pi_pos]
  have hmono : Real.sin τ ≤ Real.sin (Real.pi * (r / b)) :=
    Real.sin_le_sin_of_le_of_le_pi_div_two (by linarith [Real.pi_pos]) hquarter hτ1
  have hlip : Real.sin (Real.pi * (r / b)) ≤ Real.sin τ + 1 / 2 ^ piBits := by
    have h1 := Real.sin_sub_sin (Real.pi * (r / b)) τ
    have h2 : Real.sin ((Real.pi * (r / b) - τ) / 2) ≤ (Real.pi * (r / b) - τ) / 2 := Real.sin_le (by linarith)
    have h3 : 0 ≤ Real.sin ((Real.pi * (r / b) - τ) / 2) :=
      Real.sin_nonneg_of_nonneg_of_le_pi (by linarith) (by linarith [Real.pi_pos])
    have h4 := Real.cos_le_one ((Real.pi * (r / b) + τ) / 2)
    nlinarith
  constructor
  · have e : ((2 ^ 150 * (piBelow * r) * lo.1 : Nat) : ℝ) / ((2 ^ piBits * b * lo.2 : Nat) : ℝ) =
        2 ^ 149 * (2 * (τ * ((lo.1 : ℝ) / lo.2))) := by
      rw [hτdef]
      push_cast
      field_simp
      norm_num
      ring
    rw [e]
    have := hS.1
    gcongr
    linarith
  · have e : ((2 ^ 150 * (piBelow * r * hi.1 * 2 ^ piBits + 2 ^ piBits * b * hi.2) : Nat) : ℝ) /
        ((2 ^ piBits * b * hi.2 * 2 ^ piBits : Nat) : ℝ) =
        2 ^ 149 * (2 * (τ * ((hi.1 : ℝ) / hi.2) + 1 / 2 ^ piBits)) := by
      rw [hτdef]
      push_cast
      field_simp
      norm_num
    rw [e]
    have := hS.2
    gcongr
    linarith

/-- A magnitude below that of 1.0 is its significand over a power of two. -/
theorem unitsOfMag_scale {m : Nat} (hm : m < 0x3F800000) :
    unitsOfMag m * 2 ^ scaleOfMag m = sigOfMag m * 2 ^ 149 ∧ sigOfMag m < 2 ^ scaleOfMag m := by
  unfold unitsOfMag sigOfMag scaleOfMag
  by_cases h : m / 2 ^ 23 = 0
  · simp only [h, if_true, Nat.zero_le, Nat.max_eq_right]
    have : m < 2 ^ 23 := by omega
    exact ⟨trivial, lt_of_lt_of_le this (Nat.pow_le_pow_right (by norm_num) (by norm_num))⟩
  · simp only [h, if_false]
    rw [max_eq_left (by omega : 1 ≤ m / 2 ^ 23)]
    have h2 : m / 2 ^ 23 ≤ 126 := by omega
    constructor
    · rw [Nat.mul_assoc, ← pow_add]
      congr 2
      omega
    · calc 2 ^ 23 + m % 2 ^ 23 < 2 ^ 24 := by omega
        _ ≤ 2 ^ (150 - m / 2 ^ 23) := Nat.pow_le_pow_right (by norm_num) (by omega)

/-- The enclosure of `2^powBits * (hi/lo)^p` for `p` in [0, 1). -/
theorem ratioPower_spec {lo hi p : F32} (hlo : 0 < units lo) (hhi : 0 < units hi) (hp : fmag p < 0x3F800000) :
    ((ratioPower lo hi p).1 : ℝ) ≤ 2 ^ powBits * ((units hi : ℝ) / units lo) ^ ((units p : ℝ) / 2 ^ 149) ∧
    2 ^ powBits * ((units hi : ℝ) / units lo) ^ ((units p : ℝ) / 2 ^ 149) ≤ (ratioPower lo hi p).2 := by
  obtain ⟨h1, h2⟩ := unitsOfMag_scale hp
  have hexp : (units p : ℝ) / 2 ^ 149 =
      (((sigOfMag (fmag p) % 2 ^ scaleOfMag (fmag p) : Nat) : ℝ) + 0) / 2 ^ scaleOfMag (fmag p) := by
    rw [Nat.mod_eq_of_lt h2, add_zero, div_eq_div_iff (by positivity) (by positivity)]
    exact_mod_cast h1
  rw [hexp]
  exact powEnclosure_spec hhi hlo _ _ 0 _ (by simp) (by simp)

end Sys2Proof.Machine
end

