-- ==== Sys2Proof/Laws/State.lean ====
section
/-! SUPPORT. One lemma per field of State per register or stream operation, so that no proof unfolds a record update. -/

namespace Sys2Proof.Machine

@[simp] theorem writeSignals_low (v : Signals) (s : State) : (writeSignals v s).low = v.low := rfl
@[simp] theorem writeSignals_band (v : Signals) (s : State) : (writeSignals v s).band = v.band := rfl
@[simp] theorem writeSignals_high (v : Signals) (s : State) : (writeSignals v s).high = v.high := rfl
@[simp] theorem writeSignals_freqN (v : Signals) (s : State) : (writeSignals v s).freqN = s.freqN := rfl
@[simp] theorem writeSignals_qN (v : Signals) (s : State) : (writeSignals v s).qN = s.qN := rfl
@[simp] theorem writeSignals_shape (v : Signals) (s : State) : (writeSignals v s).shape = s.shape := rfl
@[simp] theorem writeSignals_freqHz (v : Signals) (s : State) : (writeSignals v s).freqHz = s.freqHz := rfl
@[simp] theorem writeSignals_f (v : Signals) (s : State) : (writeSignals v s).f = s.f := rfl
@[simp] theorem writeSignals_q (v : Signals) (s : State) : (writeSignals v s).q = s.q := rfl
@[simp] theorem writeSignals_damp (v : Signals) (s : State) : (writeSignals v s).damp = s.damp := rfl
@[simp] theorem writeSignals_cfg (v : Signals) (s : State) : (writeSignals v s).cfg = s.cfg := rfl
@[simp] theorem writeSignals_inbox (v : Signals) (s : State) : (writeSignals v s).inbox = s.inbox := rfl
@[simp] theorem writeSignals_partialWord (v : Signals) (s : State) : (writeSignals v s).partialWord = s.partialWord := rfl
@[simp] theorem writeSignals_responses (v : Signals) (s : State) : (writeSignals v s).responses = s.responses := rfl

@[simp] theorem writeFreq_low (pn : F32) (s : State) : (writeFreq pn s).low = s.low := rfl
@[simp] theorem writeFreq_band (pn : F32) (s : State) : (writeFreq pn s).band = s.band := rfl
@[simp] theorem writeFreq_high (pn : F32) (s : State) : (writeFreq pn s).high = s.high := rfl
@[simp] theorem writeFreq_freqN (pn : F32) (s : State) : (writeFreq pn s).freqN = pn := rfl
@[simp] theorem writeFreq_qN (pn : F32) (s : State) : (writeFreq pn s).qN = s.qN := rfl
@[simp] theorem writeFreq_shape (pn : F32) (s : State) : (writeFreq pn s).shape = s.shape := rfl
@[simp] theorem writeFreq_freqHz (pn : F32) (s : State) : (writeFreq pn s).freqHz = deriveFreqHz s.cfg pn := rfl
@[simp] theorem writeFreq_f (pn : F32) (s : State) : (writeFreq pn s).f = deriveF s.cfg pn := rfl
@[simp] theorem writeFreq_q (pn : F32) (s : State) : (writeFreq pn s).q = s.q := rfl
@[simp] theorem writeFreq_damp (pn : F32) (s : State) : (writeFreq pn s).damp = s.damp := rfl
@[simp] theorem writeFreq_cfg (pn : F32) (s : State) : (writeFreq pn s).cfg = s.cfg := rfl
@[simp] theorem writeFreq_inbox (pn : F32) (s : State) : (writeFreq pn s).inbox = s.inbox := rfl
@[simp] theorem writeFreq_partialWord (pn : F32) (s : State) : (writeFreq pn s).partialWord = s.partialWord := rfl
@[simp] theorem writeFreq_responses (pn : F32) (s : State) : (writeFreq pn s).responses = s.responses := rfl

@[simp] theorem writeQ_low (pn : F32) (s : State) : (writeQ pn s).low = s.low := rfl
@[simp] theorem writeQ_band (pn : F32) (s : State) : (writeQ pn s).band = s.band := rfl
@[simp] theorem writeQ_high (pn : F32) (s : State) : (writeQ pn s).high = s.high := rfl
@[simp] theorem writeQ_freqN (pn : F32) (s : State) : (writeQ pn s).freqN = s.freqN := rfl
@[simp] theorem writeQ_qN (pn : F32) (s : State) : (writeQ pn s).qN = pn := rfl
@[simp] theorem writeQ_shape (pn : F32) (s : State) : (writeQ pn s).shape = s.shape := rfl
@[simp] theorem writeQ_freqHz (pn : F32) (s : State) : (writeQ pn s).freqHz = s.freqHz := rfl
@[simp] theorem writeQ_f (pn : F32) (s : State) : (writeQ pn s).f = s.f := rfl
@[simp] theorem writeQ_q (pn : F32) (s : State) : (writeQ pn s).q = deriveQ s.cfg pn := rfl
@[simp] theorem writeQ_damp (pn : F32) (s : State) : (writeQ pn s).damp = deriveDamp s.cfg pn := rfl
@[simp] theorem writeQ_cfg (pn : F32) (s : State) : (writeQ pn s).cfg = s.cfg := rfl
@[simp] theorem writeQ_inbox (pn : F32) (s : State) : (writeQ pn s).inbox = s.inbox := rfl
@[simp] theorem writeQ_partialWord (pn : F32) (s : State) : (writeQ pn s).partialWord = s.partialWord := rfl
@[simp] theorem writeQ_responses (pn : F32) (s : State) : (writeQ pn s).responses = s.responses := rfl

@[simp] theorem writeShape_low (pn : F32) (s : State) : (writeShape pn s).low = s.low := rfl
@[simp] theorem writeShape_band (pn : F32) (s : State) : (writeShape pn s).band = s.band := rfl
@[simp] theorem writeShape_high (pn : F32) (s : State) : (writeShape pn s).high = s.high := rfl
@[simp] theorem writeShape_freqN (pn : F32) (s : State) : (writeShape pn s).freqN = s.freqN := rfl
@[simp] theorem writeShape_qN (pn : F32) (s : State) : (writeShape pn s).qN = s.qN := rfl
@[simp] theorem writeShape_shape (pn : F32) (s : State) : (writeShape pn s).shape = pn := rfl
@[simp] theorem writeShape_freqHz (pn : F32) (s : State) : (writeShape pn s).freqHz = s.freqHz := rfl
@[simp] theorem writeShape_f (pn : F32) (s : State) : (writeShape pn s).f = s.f := rfl
@[simp] theorem writeShape_q (pn : F32) (s : State) : (writeShape pn s).q = s.q := rfl
@[simp] theorem writeShape_damp (pn : F32) (s : State) : (writeShape pn s).damp = s.damp := rfl
@[simp] theorem writeShape_cfg (pn : F32) (s : State) : (writeShape pn s).cfg = s.cfg := rfl
@[simp] theorem writeShape_inbox (pn : F32) (s : State) : (writeShape pn s).inbox = s.inbox := rfl
@[simp] theorem writeShape_partialWord (pn : F32) (s : State) : (writeShape pn s).partialWord = s.partialWord := rfl
@[simp] theorem writeShape_responses (pn : F32) (s : State) : (writeShape pn s).responses = s.responses := rfl

@[simp] theorem respond_low (out : F32) (s : State) : (respond out s).low = s.low := rfl
@[simp] theorem respond_band (out : F32) (s : State) : (respond out s).band = s.band := rfl
@[simp] theorem respond_high (out : F32) (s : State) : (respond out s).high = s.high := rfl
@[simp] theorem respond_freqN (out : F32) (s : State) : (respond out s).freqN = s.freqN := rfl
@[simp] theorem respond_qN (out : F32) (s : State) : (respond out s).qN = s.qN := rfl
@[simp] theorem respond_shape (out : F32) (s : State) : (respond out s).shape = s.shape := rfl
@[simp] theorem respond_freqHz (out : F32) (s : State) : (respond out s).freqHz = s.freqHz := rfl
@[simp] theorem respond_f (out : F32) (s : State) : (respond out s).f = s.f := rfl
@[simp] theorem respond_q (out : F32) (s : State) : (respond out s).q = s.q := rfl
@[simp] theorem respond_damp (out : F32) (s : State) : (respond out s).damp = s.damp := rfl
@[simp] theorem respond_cfg (out : F32) (s : State) : (respond out s).cfg = s.cfg := rfl
@[simp] theorem respond_inbox (out : F32) (s : State) : (respond out s).inbox = s.inbox := rfl
@[simp] theorem respond_partialWord (out : F32) (s : State) : (respond out s).partialWord = s.partialWord := rfl
@[simp] theorem respond_responses (out : F32) (s : State) : (respond out s).responses = s.responses ++ [out] := rfl

@[simp] theorem issueCommand_low (w : Cmd) (s : State) : (issueCommand w s).low = s.low := rfl
@[simp] theorem issueCommand_band (w : Cmd) (s : State) : (issueCommand w s).band = s.band := rfl
@[simp] theorem issueCommand_high (w : Cmd) (s : State) : (issueCommand w s).high = s.high := rfl
@[simp] theorem issueCommand_freqN (w : Cmd) (s : State) : (issueCommand w s).freqN = s.freqN := rfl
@[simp] theorem issueCommand_qN (w : Cmd) (s : State) : (issueCommand w s).qN = s.qN := rfl
@[simp] theorem issueCommand_shape (w : Cmd) (s : State) : (issueCommand w s).shape = s.shape := rfl
@[simp] theorem issueCommand_freqHz (w : Cmd) (s : State) : (issueCommand w s).freqHz = s.freqHz := rfl
@[simp] theorem issueCommand_f (w : Cmd) (s : State) : (issueCommand w s).f = s.f := rfl
@[simp] theorem issueCommand_q (w : Cmd) (s : State) : (issueCommand w s).q = s.q := rfl
@[simp] theorem issueCommand_damp (w : Cmd) (s : State) : (issueCommand w s).damp = s.damp := rfl
@[simp] theorem issueCommand_cfg (w : Cmd) (s : State) : (issueCommand w s).cfg = s.cfg := rfl
@[simp] theorem issueCommand_inbox (w : Cmd) (s : State) : (issueCommand w s).inbox = s.inbox ++ [w] := rfl
@[simp] theorem issueCommand_partialWord (w : Cmd) (s : State) : (issueCommand w s).partialWord = s.partialWord := rfl
@[simp] theorem issueCommand_responses (w : Cmd) (s : State) : (issueCommand w s).responses = s.responses := rfl

end Sys2Proof.Machine
end

