-- ==== Sys2Proof/Laws/Ops.lean ====
section
/-! SUPPORT. What each shared operation can do, said once: clamping, containment, the setters, the meanings and the step. -/

namespace Sys2Proof.Machine

/-- A NaN operand, and only that, makes a setter ignore the write (R122). -/
theorem clampN_eq_none_iff (p : F32) : clampN p = none ↔ isNaN p = true := by
  unfold clampN
  split
  · simpa
  · rename_i h
    split
    · simp [h]
    · split <;> simp [h]

/-- What clamping answers for an operand that is no NaN (R15, R121). -/
theorem clampN_of_not_isNaN {p : F32} (h : isNaN p = false) :
    clampN p = some (if fle p plusZero then plusZero else if fle one p then one else p) := by
  unfold clampN
  rw [h]
  split
  · simp at *
  · split
    · rfl
    · split <;> rfl

/-- A clamped operand is in [+0.0, 1.0] (R121). -/
theorem inUnit_of_clampN {p pn : F32} (h : clampN p = some pn) : inUnit pn = true := by
  unfold clampN at h
  split at h
  · simp at h
  · rename_i hn
    split at h
    · simp only [Option.some.injEq] at h
      subst h
      decide
    · rename_i h0
      split at h
      · simp only [Option.some.injEq] at h
        subst h
        decide
      · rename_i h1
        simp only [Option.some.injEq] at h
        subst h
        have n0 : isNaN plusZero = false := by decide
        have n1 : isNaN one = false := by decide
        have k0 : orderKey plusZero = 0 := by decide
        have k1 : orderKey one = 0x3F800000 := by decide
        simp [fle, hn, n0, n1, k0, k1] at h0 h1
        rw [inUnit_iff]
        unfold orderKey at h0 h1
        split at h0
        · omega
        · rename_i hs
          exact ⟨by simpa using hs, by simp [hs] at h1; omega⟩

/-- A value already in [+0.0, 1.0] is its own clamp (R15). -/
theorem clampN_of_inUnit {p : F32} (h : inUnit p = true) : clampN p = some p := by
  have hf := isFinite_of_inUnit h
  have hn := not_isNaN_of_isFinite hf
  rw [inUnit_iff] at h
  rw [clampN_of_not_isNaN hn]
  have e0 : fle p plusZero = decide (fmag p ≤ 0) := fle_of_nonneg h.1 (by decide) hf (by decide)
  have e1 : fle one p = decide (0x3F800000 ≤ fmag p) := fle_of_nonneg (by decide) h.1 (by decide) hf
  rw [e0, e1]
  congr 1
  split
  · rename_i h0
    apply ext_sign_mag
    · rw [h.1]; decide
    · have : fmag p = 0 := by simpa using h0
      rw [this]; decide
  · split
    · rename_i h1
      apply ext_sign_mag
      · rw [h.1]; decide
      · have : fmag p = 0x3F800000 := by
          have := of_decide_eq_true h1
          omega
        rw [this]; decide
    · rfl

/-- What a setter does: nothing, or one write of a value in [+0.0, 1.0] (R120 to R122). -/
theorem setParameter_cases (write : F32 → State → State) (p : F32) (s : State) :
    (isNaN p = true ∧ setParameter write p s = s) ∨
    ∃ pn, clampN p = some pn ∧ inUnit pn = true ∧ setParameter write p s = write pn s := by
  unfold setParameter
  cases h : clampN p with
  | none => exact .inl ⟨(clampN_eq_none_iff p).1 h, rfl⟩
  | some pn => exact .inr ⟨pn, rfl, inUnit_of_clampN h, rfl⟩

theorem isFinite_contain (a : F32) : isFinite (contain a) = true := by
  unfold contain
  split
  · assumption
  · decide

theorem contain_of_isFinite {a : F32} (h : isFinite a = true) : contain a = a := by
  unfold contain
  rw [if_pos h]

/-- After the sanitisation all three values are finite (R107). -/
theorem isFinite_sanitize (mode : SanitizeMode) (v : Signals) :
    isFinite (sanitize mode v).low = true ∧ isFinite (sanitize mode v).band = true ∧
      isFinite (sanitize mode v).high = true := by
  cases mode with
  | allOnAny =>
    unfold sanitize
    cases h : anyNonFinite v with
    | true => exact ⟨isFinite_plusZero, isFinite_plusZero, isFinite_plusZero⟩
    | false =>
      simp only [anyNonFinite, Bool.or_eq_false_iff, Bool.not_eq_false'] at h
      exact ⟨h.1.1, h.1.2, h.2⟩
  | perVariable => exact ⟨isFinite_contain _, isFinite_contain _, isFinite_contain _⟩

/-- The sanitisation changes nothing, in either mode, where all three values are finite (R106). -/
theorem sanitize_of_finite (mode : SanitizeMode) {v : Signals} (hl : isFinite v.low = true)
    (hb : isFinite v.band = true) (hh : isFinite v.high = true) : sanitize mode v = v := by
  cases mode with
  | allOnAny => simp [sanitize, anyNonFinite, hl, hb, hh]
  | perVariable => simp [sanitize, contain_of_isFinite, hl, hb, hh]

/-- ALL_ON_ANY in terms of its three tests (R106). -/
theorem sanitize_allOnAny (v : Signals) :
    sanitize .allOnAny v =
      if isFinite v.low && isFinite v.band && isFinite v.high then v else ⟨plusZero, plusZero, plusZero⟩ := by
  unfold sanitize anyNonFinite
  cases isFinite v.low <;> cases isFinite v.band <;> cases isFinite v.high <;> rfl

/-- Every command answers a next state: no command traps, halts or is refused (R150). -/
theorem exec_next (i : Instr) (s : State) : ∃ t, exec i s = .next t := by
  cases i <;> exact ⟨_, rfl⟩

/-- With nothing delivered the block waits (R163, R181). -/
theorem step_of_empty {s : State} (h : s.inbox = []) : step s = .next s := by
  unfold step takeCommand
  rw [h]
  rfl

/-- A delivered word that decodes is executed, without the word in the stream (R55, R156). -/
theorem step_of_decode {s : State} {w : Cmd} {rest : List Cmd} {i : Instr} (h : s.inbox = w :: rest)
    (hd : decode w = .ok i) : step s = exec i { s with inbox := rest } := by
  unfold step takeCommand
  rw [h]
  simp [hd]

/-- A delivered word that does not decode is consumed and changes nothing (R142). -/
theorem step_of_illegal {s : State} {w : Cmd} {rest : List Cmd} {e : DecodeError} (h : s.inbox = w :: rest)
    (hd : decode w = .error e) : step s = .next { s with inbox := rest } := by
  unfold step takeCommand illegalCommand
  rw [h]
  simp [hd]

/-- All that a step can do: wait, execute the oldest word's command, or consume an illegal word (R55, R142, R163). -/
theorem step_cases (s : State) :
    (s.inbox = [] ∧ step s = .next s) ∨
    (∃ w rest i, s.inbox = w :: rest ∧ decode w = .ok i ∧ step s = exec i { s with inbox := rest }) ∨
    (∃ w rest e, s.inbox = w :: rest ∧ decode w = .error e ∧ step s = .next { s with inbox := rest }) := by
  cases hi : s.inbox with
  | nil => exact .inl ⟨rfl, step_of_empty hi⟩
  | cons w rest =>
    cases hd : decode w with
    | ok i => exact .inr (.inl ⟨w, rest, i, rfl, hd, step_of_decode hi hd⟩)
    | error e => exact .inr (.inr ⟨w, rest, e, rfl, hd, step_of_illegal hi hd⟩)

/-- No command reads the delivered words, so their removal commutes with every meaning (R55). -/
theorem exec_withInbox (i : Instr) (s t : State) (ws : List Cmd) (h : exec i s = .next t) :
    exec i { s with inbox := ws } = .next { t with inbox := ws } := by
  cases i with
  | process x =>
    simp only [exec, execProcess, Host.Outcome.next.injEq] at h ⊢
    subst h
    rfl
  | setfreq p =>
    simp only [exec, execSetfreq, Host.Outcome.next.injEq] at h ⊢
    subst h
    unfold setParameter
    cases clampN p <;> rfl
  | setq p =>
    simp only [exec, execSetq, Host.Outcome.next.injEq] at h ⊢
    subst h
    unfold setParameter
    cases clampN p <;> rfl
  | setshape p =>
    simp only [exec, execSetshape, Host.Outcome.next.injEq] at h ⊢
    subst h
    unfold setParameter
    cases clampN p <;> rfl
  | reset data =>
    simp only [exec, execReset, Host.Outcome.next.injEq] at h ⊢
    subst h
    rfl

end Sys2Proof.Machine
end

