-- ==== Sys2Proof/Laws/Rounding.lean ====
section
/-! SUPPORT. The one rounding function (R13). `RoundsToMag y m` says that the exact value `y`, in units, rounds to the magnitude
`m`: it is past the midpoint below `m` and not past the one above. It determines `m` and is monotone, `roundMag` meets it, and
it makes the packed word `round32` of the real number. -/

namespace Sys2Proof.Machine

/-- The value of a magnitude written as `n` quanta of `2^k`. -/
theorem unitsOfMag_quanta {n k : Nat} (hn : n ≤ 2 ^ 24) (hk : k = 0 ∨ 2 ^ 23 ≤ n) :
    unitsOfMag (n + k * 2 ^ 23) = n * 2 ^ k := by
  unfold unitsOfMag
  rcases Nat.lt_or_ge n (2 ^ 23) with h | h
  · obtain rfl : k = 0 := by omega
    rw [if_pos (by omega)]
    simp
  · rcases Nat.lt_or_ge n (2 ^ 24) with h' | h'
    · have h1 : (n + k * 2 ^ 23) / 2 ^ 23 = k + 1 := by omega
      have h2 : (n + k * 2 ^ 23) % 2 ^ 23 = n - 2 ^ 23 := by omega
      have h3 : 2 ^ 23 + (n - 2 ^ 23) = n := by omega
      simp only [h1, h2, h3, Nat.add_eq_zero_iff, one_ne_zero, and_false, if_false, Nat.add_sub_cancel]
    · have h0 : n = 2 ^ 24 := by omega
      have h1 : (n + k * 2 ^ 23) / 2 ^ 23 = k + 2 := by omega
      have h2 : (n + k * 2 ^ 23) % 2 ^ 23 = 0 := by omega
      rw [h1, h2, if_neg (by omega), show k + 2 - 1 = k + 1 from rfl, pow_succ, h0]
      ring

/-- `nearestEven` lies between the integers around the exact value. -/
theorem nearestEven_bounds (num den : Nat) : num / den ≤ nearestEven num den ∧ nearestEven num den ≤ num / den + 1 := by
  unfold nearestEven
  have := Nat.mod_lt (num / den) (show 0 < 2 by norm_num)
  split
  · omega
  · split <;> omega

/-- The number of quanta `roundMag` rounds to fits a significand. -/
theorem quanta_bounds (num den : Nat) :
    nearestEven num (den * 2 ^ quantumLog num den) ≤ 2 ^ 24 ∧
    (quantumLog num den = 0 ∨
      (2 ^ 23 ≤ num / (den * 2 ^ quantumLog num den) ∧
        2 ^ 23 ≤ nearestEven num (den * 2 ^ quantumLog num den))) := by
  have hb := nearestEven_bounds num (den * 2 ^ quantumLog num den)
  have hdiv : num / (den * 2 ^ quantumLog num den) = num / den / 2 ^ quantumLog num den := by
    rw [Nat.div_div_eq_div_mul]
  have hlt : num / den / 2 ^ quantumLog num den < 2 ^ 24 := by
    rw [Nat.div_lt_iff_lt_mul (by positivity), ← pow_add]
    calc num / den < 2 ^ ((num / den).log2 + 1) := Nat.lt_log2_self
      _ ≤ 2 ^ (24 + quantumLog num den) := Nat.pow_le_pow_right (by norm_num) (by unfold quantumLog; omega)
  refine ⟨by omega, ?_⟩
  by_cases hk : quantumLog num den = 0
  · exact .inl hk
  · right
    have h0 : num / den ≠ 0 := by
      intro h
      apply hk
      simp [quantumLog, h]
    have hge : 2 ^ 23 ≤ num / den / 2 ^ quantumLog num den := by
      rw [Nat.le_div_iff_mul_le (by positivity), ← pow_add]
      calc 2 ^ (23 + quantumLog num den) = 2 ^ (num / den).log2 := by
            congr 1
            unfold quantumLog at *
            omega
        _ ≤ num / den := Nat.log2_self_le h0
    omega

/-- Magnitudes and the values they stand for have the same strict order. -/
theorem unitsOfMag_lt {m n : Nat} (h : m < n) : unitsOfMag m < unitsOfMag n := by
  unfold unitsOfMag
  have hm := Nat.mod_lt m (show 0 < 2 ^ 23 by norm_num)
  split
  · split
    · exact h
    · have h1 : 2 ^ 23 + n % 2 ^ 23 ≤ (2 ^ 23 + n % 2 ^ 23) * 2 ^ (n / 2 ^ 23 - 1) :=
        Nat.le_mul_of_pos_right _ (by positivity)
      omega
  · have hdiv : m / 2 ^ 23 ≤ n / 2 ^ 23 := Nat.div_le_div_right h.le
    rw [if_neg (by omega)]
    rcases Nat.eq_or_lt_of_le hdiv with e | e
    · rw [e]
      exact Nat.mul_lt_mul_of_pos_right (by omega) (by positivity)
    · calc (2 ^ 23 + m % 2 ^ 23) * 2 ^ (m / 2 ^ 23 - 1) < 2 ^ 24 * 2 ^ (m / 2 ^ 23 - 1) :=
            Nat.mul_lt_mul_of_pos_right (by omega) (by positivity)
        _ = 2 ^ 23 * 2 ^ (m / 2 ^ 23 - 1 + 1) := by rw [pow_succ 2 (m / 2 ^ 23 - 1)]; ring
        _ ≤ 2 ^ 23 * 2 ^ (n / 2 ^ 23 - 1) := Nat.mul_le_mul_left _ (Nat.pow_le_pow_right (by norm_num) (by omega))
        _ ≤ (2 ^ 23 + n % 2 ^ 23) * 2 ^ (n / 2 ^ 23 - 1) := Nat.mul_le_mul_right _ (by omega)

theorem unitsOfMag_le {m n : Nat} (h : m ≤ n) : unitsOfMag m ≤ unitsOfMag n := by
  rcases Nat.eq_or_lt_of_le h with rfl | h
  · exact le_rfl
  · exact (unitsOfMag_lt h).le

/-- The magnitude of infinity stands for 2^128 in units, above the overflow threshold. -/
theorem unitsOfMag_infinity : unitsOfMag 0x7F800000 = 2 ^ 25 * 2 ^ 252 := by
  unfold unitsOfMag
  norm_num

theorem unitsOfMag_largest : unitsOfMag 0x7F7FFFFF = (2 ^ 24 - 1) * 2 ^ 253 := by
  unfold unitsOfMag
  norm_num

/-- Twice the value `nearestEven num den` differs from twice `num / den` by at most 1, and by 1 only where it is even. -/
theorem nearestEven_spec (num : Nat) {den : Nat} (hd : 0 < den) :
    2 * nearestEven num den * den ≤ 2 * num + den ∧ 2 * num ≤ (2 * nearestEven num den + 1) * den ∧
    (2 * nearestEven num den * den = 2 * num + den → nearestEven num den % 2 = 0) ∧
    (2 * num = (2 * nearestEven num den + 1) * den → nearestEven num den % 2 = 0) := by
  have hs := Nat.div_add_mod' num den
  have hr := Nat.mod_lt num hd
  unfold nearestEven
  generalize num / den = q at *
  generalize num % den = r at *
  have e0 : 2 * q * den = 2 * (q * den) := by ring
  have e1 : 2 * (q + 1) * den = 2 * (q * den) + 2 * den := by ring
  have e2 : (2 * q + 1) * den = 2 * (q * den) + den := by ring
  have e3 : (2 * (q + 1) + 1) * den = 2 * (q * den) + 3 * den := by ring
  split
  · rw [e0, e2]; omega
  · split
    · rw [e1, e3]; omega
    · rcases Nat.mod_two_eq_zero_or_one q with h | h <;> rw [h]
      · rw [Nat.add_zero, e0, e2]; omega
      · rw [e1, e3]; omega

theorem midSum_lt {m n : Nat} (h : m < n) : midSum m < midSum n :=
  Nat.add_lt_add (unitsOfMag_lt h) (unitsOfMag_lt (Nat.succ_lt_succ h))

/-- The midpoint above the largest finite magnitude is the overflow threshold. -/
theorem midSum_largest : midSum 0x7F7FFFFF = 2 * ((2 ^ 25 - 1) * 2 ^ 252) := by
  unfold midSum
  rw [unitsOfMag_largest, unitsOfMag_infinity]
  norm_num

/-- The exact value `y` rounds to a magnitude above `m`: it is past the midpoint, or on it and `m` is odd (R13). -/
def Past (y : ℝ) (m : Nat) : Prop := (midSum m : ℝ) < 2 * y ∨ ((midSum m : ℝ) = 2 * y ∧ m % 2 = 1)

/-- The exact value `y >= 0`, in units, rounds to the magnitude `m`, that of infinity included (R13). -/
def RoundsToMag (y : ℝ) (m : Nat) : Prop :=
  m ≤ 0x7F800000 ∧ (m = 0 ∨ Past y (m - 1)) ∧ (m = 0x7F800000 ∨ ¬ Past y m)

theorem past_mono {y z : ℝ} {m n : Nat} (h : Past z m) (hyz : z ≤ y) (hnm : n ≤ m) : Past y n := by
  rcases Nat.eq_or_lt_of_le hnm with rfl | hlt
  · rcases h with h | ⟨h, h'⟩
    · exact .inl (by linarith)
    · rcases hyz.lt_or_eq with e | rfl
      · exact .inl (by linarith)
      · exact .inr ⟨h, h'⟩
  · have h1 : (midSum n : ℝ) < midSum m := by exact_mod_cast midSum_lt hlt
    rcases h with h | ⟨h, -⟩ <;> exact .inl (by linarith)

/-- Rounding is monotone, and so determined. -/
theorem RoundsToMag.mono {y z : ℝ} {m n : Nat} (hm : RoundsToMag y m) (hn : RoundsToMag z n) (h : y ≤ z) : m ≤ n := by
  by_contra hc
  have h1 := past_mono (hm.2.1.resolve_left (by omega)) h (show n ≤ m - 1 by omega)
  exact hn.2.2.elim (fun e => by have := hm.1; omega) (absurd h1)

/-- `roundMag num den` is the magnitude that `num / den` rounds to (R13). -/
theorem roundsToMag_roundMag (num : Nat) {den : Nat} (hd : 0 < den) :
    RoundsToMag ((num : ℝ) / den) (roundMag num den) := by
  have hdR : (0 : ℝ) < den := by exact_mod_cast hd
  have hq := quanta_bounds num den
  have hnear := nearestEven_spec num (show 0 < den * 2 ^ quantumLog num den by positivity)
  have past_iff : ∀ m, Past ((num : ℝ) / den) m ↔ midSum m * den < 2 * num ∨ (midSum m * den = 2 * num ∧ m % 2 = 1) := by
    intro m
    unfold Past
    rw [← mul_div_assoc, lt_div_iff₀ hdR, eq_div_iff hdR.ne']
    norm_cast
  unfold roundMag
  generalize quantumLog num den = k at *
  generalize nearestEven num (den * 2 ^ k) = n at *
  obtain ⟨n1, n2, n3, n4⟩ := hnear
  have hK : 0 < den * 2 ^ k := by positivity
  have hu := unitsOfMag_quanta hq.1 (hq.2.imp id (·.2))
  have lower : n + k * 2 ^ 23 = 0 ∨ Past ((num : ℝ) / den) (n + k * 2 ^ 23 - 1) := by
    by_cases h0 : n + k * 2 ^ 23 = 0
    · exact .inl h0
    right
    have hmid : midSum (n + k * 2 ^ 23 - 1) = unitsOfMag (n + k * 2 ^ 23 - 1) + n * 2 ^ k := by
      rw [midSum, show n + k * 2 ^ 23 - 1 + 1 = n + k * 2 ^ 23 by omega, hu]
    rw [past_iff, hmid]
    by_cases hb : k = 0 ∨ 2 ^ 23 < n
    · have e : unitsOfMag (n + k * 2 ^ 23 - 1) = (n - 1) * 2 ^ k := by
        rw [show n + k * 2 ^ 23 - 1 = (n - 1) + k * 2 ^ 23 by omega]
        exact unitsOfMag_quanta (by omega) (by omega)
      have e2 : ((n - 1) * 2 ^ k + n * 2 ^ k) * den + den * 2 ^ k = 2 * n * (den * 2 ^ k) := by
        obtain ⟨j, rfl⟩ : ∃ j, n = j + 1 := ⟨n - 1, by omega⟩
        simp only [Nat.add_sub_cancel]
        ring
      rw [e]
      omega
    · left
      obtain ⟨hk, hn⟩ : k ≠ 0 ∧ n ≤ 2 ^ 23 := by omega
      obtain ⟨h1, h2⟩ := hq.2.resolve_left hk
      have hn' : n = 2 ^ 23 := by omega
      have h3 := (Nat.le_div_iff_mul_le hK).1 h1
      have h4 : unitsOfMag (n + k * 2 ^ 23 - 1) < n * 2 ^ k := by
        rw [← hu]
        exact unitsOfMag_lt (by omega)
      calc (unitsOfMag (n + k * 2 ^ 23 - 1) + n * 2 ^ k) * den < (n * 2 ^ k + n * 2 ^ k) * den :=
            Nat.mul_lt_mul_of_pos_right (by omega) hd
        _ = 2 * (2 ^ 23 * (den * 2 ^ k)) := by rw [hn']; ring
        _ ≤ 2 * num := by omega
  have upper : ¬ Past ((num : ℝ) / den) (n + k * 2 ^ 23) := by
    rw [past_iff, midSum, hu]
    have e2 : (n * 2 ^ k + (n + 1) * 2 ^ k) * den = (2 * n + 1) * (den * 2 ^ k) := by ring
    have e3 : (n + 1) * 2 ^ k ≤ unitsOfMag (n + k * 2 ^ 23 + 1) := by
      by_cases h : n = 2 ^ 24
      · rw [show n + k * 2 ^ 23 + 1 = (2 ^ 23 + 1) + (k + 1) * 2 ^ 23 by omega, unitsOfMag_quanta (by omega) (by omega),
          pow_succ, h]
        have := Nat.two_pow_pos k
        omega
      · rw [show n + k * 2 ^ 23 + 1 = (n + 1) + k * 2 ^ 23 by omega, unitsOfMag_quanta (by omega) (by omega)]
    have e4 := Nat.mul_le_mul_right den (Nat.add_le_add_left e3 (n * 2 ^ k))
    rintro (h | ⟨h, h'⟩)
    · omega
    · have := n4 (by omega)
      omega
  refine ⟨Nat.min_le_right _ _, ?_, ?_⟩
  · rcases lower with h | h
    · exact .inl (by omega)
    · exact .inr (past_mono h le_rfl (Nat.sub_le_sub_right (Nat.min_le_left _ _) 1))
  · rcases Nat.lt_or_ge (n + k * 2 ^ 23) 0x7F800000 with h | h
    · rw [min_eq_left h.le]
      exact .inr upper
    · exact .inl (min_eq_right h)

/-- A magnitude's value rounds to the magnitude. -/
theorem roundsToMag_unitsOfMag {m : Nat} (hm : m ≤ 0x7F800000) : RoundsToMag (unitsOfMag m) m := by
  have hlt : (unitsOfMag m : ℝ) < unitsOfMag (m + 1) := by exact_mod_cast unitsOfMag_lt m.lt_succ_self
  refine ⟨hm, ?_, .inr ?_⟩
  · rcases Nat.eq_zero_or_pos m with h | h
    · exact .inl h
    · have : (unitsOfMag (m - 1) : ℝ) < unitsOfMag m := by exact_mod_cast unitsOfMag_lt (by omega)
      refine .inr (.inl ?_)
      rw [midSum, Nat.sub_add_cancel h]
      push_cast
      linarith
  · unfold Past midSum
    push_cast
    rintro (h | ⟨h, -⟩) <;> linarith

/-- Rounding does not pass a magnitude from below. -/
theorem roundMag_le_of_le {num den m : Nat} (hd : 0 < den) (h : num ≤ unitsOfMag m * den) : roundMag num den ≤ m := by
  rcases Nat.lt_or_ge 0x7F800000 m with hm | hm
  · exact le_trans (roundMag_le _ _) hm.le
  · refine (roundsToMag_roundMag num hd).mono (roundsToMag_unitsOfMag hm) ?_
    rw [div_le_iff₀ (by exact_mod_cast hd)]
    exact_mod_cast h

/-- Rounding does not pass a magnitude from above. -/
theorem le_roundMag_of_le {num den m : Nat} (hd : 0 < den) (hm : m ≤ 0x7F800000) (h : unitsOfMag m * den ≤ num) :
    m ≤ roundMag num den := by
  refine (roundsToMag_unitsOfMag hm).mono (roundsToMag_roundMag num hd) ?_
  rw [le_div_iff₀ (by exact_mod_cast hd)]
  exact_mod_cast h

/-- A magnitude's value is its own rounding. -/
theorem roundMag_unitsOfMag {m den : Nat} (hd : 0 < den) (hm : m ≤ 0x7F800000) : roundMag (unitsOfMag m * den) den = m :=
  le_antisymm (roundMag_le_of_le hd le_rfl) (le_roundMag_of_le hd hm le_rfl)

/-- Rounding is monotone in the exact value. -/
theorem roundMag_mono {n1 d1 n2 d2 : Nat} (h1 : 0 < d1) (h2 : 0 < d2) (h : n1 * d2 ≤ n2 * d1) :
    roundMag n1 d1 ≤ roundMag n2 d2 := by
  refine (roundsToMag_roundMag n1 h1).mono (roundsToMag_roundMag n2 h2) ?_
  rw [div_le_div_iff₀ (by exact_mod_cast h1) (by exact_mod_cast h2)]
  exact_mod_cast h

/-- What the search from the lower end of an enclosure answers: a magnitude from there to the upper end, with every one below
it passed, and not passed itself unless it is the upper end. -/
theorem roundUpFrom_spec (above : Nat → Bool) : ∀ fuel m : Nat,
    m ≤ roundUpFrom above fuel m ∧ roundUpFrom above fuel m ≤ m + fuel ∧
    (∀ n, m ≤ n → n < roundUpFrom above fuel m → above n = true) ∧
    (roundUpFrom above fuel m = m + fuel ∨ above (roundUpFrom above fuel m) = false) := by
  intro fuel
  induction fuel with
  | zero => intro m; exact ⟨le_rfl, le_rfl, fun n h1 h2 => absurd h1 (not_le.2 h2), .inl rfl⟩
  | succ fuel ih =>
    intro m
    rw [roundUpFrom]
    split
    · rename_i h
      obtain ⟨i1, i2, i3, i4⟩ := ih (m + 1)
      refine ⟨by omega, by omega, fun n h1 h2 => ?_, i4.imp (by omega) id⟩
      rcases Nat.eq_or_lt_of_le h1 with rfl | h1
      · exact h
      · exact i3 n h1 h2
    · rename_i h
      exact ⟨le_rfl, by omega, fun n h1 h2 => absurd h1 (not_le.2 h2), .inr (by simpa using h)⟩

/-- An exact value between the ends of an enclosure rounds to what `roundBetween` answers from their roundings, where the
comparison is that of twice the value (R124, R125). -/
theorem roundsToMag_roundBetween {x y z : ℝ} {low high : Nat} {twiceValue : Nat → Ordering} (hx : RoundsToMag x low)
    (hz : RoundsToMag z high) (hxy : x ≤ y) (hyz : y ≤ z)
    (hgt : ∀ m, twiceValue m = .gt ↔ (midSum m : ℝ) < 2 * y) (heq : ∀ m, twiceValue m = .eq ↔ (midSum m : ℝ) = 2 * y) :
    RoundsToMag y (roundBetween twiceValue low high) := by
  have above : ∀ m, roundsAbove m (twiceValue m) = true ↔ Past y m := by
    intro m
    simp only [roundsAbove, Bool.or_eq_true, Bool.and_eq_true, decide_eq_true_eq, hgt, heq, Past]
  have hlh := hx.mono hz (le_trans hxy hyz)
  obtain ⟨s1, s2, s3, s4⟩ := roundUpFrom_spec (fun m => roundsAbove m (twiceValue m)) (high - low) low
  unfold roundBetween
  generalize roundUpFrom (fun m => roundsAbove m (twiceValue m)) (high - low) low = m at *
  refine ⟨by have := hz.1; omega, ?_, ?_⟩
  · rcases Nat.eq_or_lt_of_le s1 with rfl | h
    · exact hx.2.1.imp id fun h => past_mono h hxy le_rfl
    · exact .inr ((above _).1 (s3 (m - 1) (by omega) (by omega)))
  · rcases s4 with h | h
    · rw [h, Nat.add_sub_cancel' hlh]
      exact hz.2.2.imp id fun h hc => h (past_mono hc hyz le_rfl)
    · exact .inr fun hc => by simp [(above m).2 hc] at h

/-- The value of a word from its sign and magnitude. -/
theorem valueOf_eq (a : F32) :
    (valueOf a : ℝ) = (if fsign a then -1 else 1) * (unitsOfMag (fmag a) : ℝ) / 2 ^ 149 := by
  unfold valueOf signedUnits units
  split <;> push_cast <;> ring

/-- Of two values, the one on whose side of their midpoint `y` lies is the nearer. -/
theorem abs_sub_lt_or_eq {y U V : ℝ} (h : 0 ≤ (U - V) * (2 * y - U - V)) :
    |y - U| < |y - V| ∨ (|y - U| = |y - V| ∧ (U - V) * (2 * y - U - V) = 0) := by
  rcases h.lt_or_eq with h | h
  · exact .inl (sq_lt_sq.1 (by nlinarith))
  · exact .inr ⟨(sq_eq_sq_iff_abs_eq_abs _ _).1 (by nlinarith), h.symm⟩

/-- The magnitude an exact value rounds to, where it is finite, is nearest to it, ties to even: any other value `V` lies on
another magnitude or below zero (R13). -/
theorem RoundsToMag.nearest {y V : ℝ} {m n : Nat} (h : RoundsToMag y m) (hy : 0 ≤ y) (hm : m < 0x7F800000)
    (hV : |V| = unitsOfMag n) :
    |y - unitsOfMag m| < |y - V| ∨ (|y - unitsOfMag m| = |y - V| ∧ (V = unitsOfMag m ∨ m % 2 = 0)) := by
  obtain ⟨-, below, beyond⟩ := h
  replace beyond := beyond.resolve_left hm.ne
  have key : V = unitsOfMag m ∨ 0 ≤ (unitsOfMag m - V) * (2 * y - unitsOfMag m - V) ∧
      ((unitsOfMag m - V) * (2 * y - unitsOfMag m - V) = 0 → m % 2 = 0) := by
    rcases lt_trichotomy V (unitsOfMag m) with hlt | he | hgt
    · right
      by_cases hm0 : m = 0
      · subst hm0
        have : (unitsOfMag 0 : ℝ) = 0 := by norm_num [unitsOfMag]
        rw [this] at hlt ⊢
        exact ⟨by nlinarith, fun _ => rfl⟩
      have hle : V ≤ unitsOfMag (m - 1) := by
        by_cases hv : n < m
        · exact le_trans (hV ▸ le_abs_self V) (by exact_mod_cast unitsOfMag_le (show n ≤ m - 1 by omega))
        · have h1 : (unitsOfMag m : ℝ) ≤ unitsOfMag n := by exact_mod_cast unitsOfMag_le (not_lt.1 hv)
          have h2 : (0 : ℝ) ≤ unitsOfMag (m - 1) := by positivity
          rcases abs_cases V with ⟨h3, -⟩ | ⟨h3, h4⟩ <;> linarith
      have hb := below.resolve_left hm0
      unfold Past midSum at hb
      rw [Nat.sub_add_cancel (by omega)] at hb
      push_cast at hb
      have hpos : (0 : ℝ) < unitsOfMag m - V := by linarith
      refine ⟨mul_nonneg hpos.le (by rcases hb with hb | ⟨hb, -⟩ <;> linarith), fun h0 => ?_⟩
      have h1 := (mul_eq_zero.1 h0).resolve_left hpos.ne'
      rcases hb with hb | ⟨-, hb⟩
      · linarith
      · omega
    · exact .inl he
    · right
      have hge : (unitsOfMag (m + 1) : ℝ) ≤ V := by
        have h0 : (0 : ℝ) ≤ unitsOfMag m := by positivity
        rw [abs_of_pos (by linarith)] at hV
        rw [hV] at hgt ⊢
        by_contra hc
        exact absurd hgt (not_lt.2 (by exact_mod_cast unitsOfMag_le (show n ≤ m by
          by_contra h; exact hc (by exact_mod_cast unitsOfMag_le (show m + 1 ≤ n by omega)))))
      unfold Past midSum at beyond
      push_cast at beyond
      rw [not_or, not_and', not_lt] at beyond
      have hneg : (unitsOfMag m : ℝ) - V < 0 := by linarith
      refine ⟨mul_nonneg_of_nonpos_of_nonpos hneg.le (by linarith [beyond.1]), fun h0 => ?_⟩
      have h1 := (mul_eq_zero.1 h0).resolve_left hneg.ne
      by_contra hc
      exact beyond.2 (by omega) (by linarith [beyond.1])
  rcases key with h | ⟨h, h'⟩
  · exact .inr ⟨by rw [h], .inl h⟩
  · exact (abs_sub_lt_or_eq h).imp id fun e => ⟨e.1, .inr (h' e.2)⟩

/-- A value rounds to infinity exactly from the overflow threshold on. -/
theorem RoundsToMag.infinite_iff {y : ℝ} {m : Nat} (h : RoundsToMag y m) :
    m = 0x7F800000 ↔ (2 ^ 25 - 1) * 2 ^ 252 ≤ y := by
  have hL : (midSum 0x7F7FFFFF : ℝ) = 2 * ((2 ^ 25 - 1) * 2 ^ 252) := by
    rw [midSum_largest]
    push_cast [show (1 : Nat) ≤ 2 ^ 25 by norm_num]
    ring
  have hiff : Past y 0x7F7FFFFF ↔ (2 ^ 25 - 1) * 2 ^ 252 ≤ y := by
    unfold Past
    rw [hL, and_iff_left (by norm_num), ← le_iff_lt_or_eq]
    constructor <;> intro h <;> linarith
  rw [← hiff]
  constructor
  · rintro rfl
    exact h.2.1.resolve_left (by norm_num)
  · intro hp
    by_contra hc
    exact h.2.2.resolve_left hc (past_mono hp le_rfl (by have := h.1; omega))

theorem abs_valueOf (v : F32) : |2 ^ 149 * (valueOf v : ℝ)| = (unitsOfMag (fmag v) : ℝ) := by
  have h : (0 : ℝ) ≤ unitsOfMag (fmag v) := by positivity
  rw [valueOf_eq, show ∀ a b : ℝ, 2 ^ 149 * (a * b / 2 ^ 149) = a * b from fun a b => by field_simp, abs_mul, abs_of_nonneg h]
  split <;> simp

/-- The packed word of the magnitude that `y` rounds to is `round32(y / 2^149)` (R13). -/
theorem roundsTo_of_mag {y : ℝ} {m : Nat} (h : RoundsToMag y m) (hy : 0 ≤ y) : RoundsTo (y / 2 ^ 149) (pack false m) := by
  have hlt : m < 2 ^ 31 := lt_of_le_of_lt h.1 (by norm_num)
  have hx : |y / 2 ^ 149| = y / 2 ^ 149 := abs_of_nonneg (by positivity)
  have hthr : (2 ^ 128 - 2 ^ 103 ≤ |y / 2 ^ 149|) ↔ m = 0x7F800000 := by
    rw [h.infinite_iff, hx, le_div_iff₀ (by positivity)]
    norm_num
  refine ⟨fun hn => absurd hn (not_lt.2 (by positivity)), fun _ => fsign_pack _ hlt, fun hf => ?_, fun hf =>
    (isInf_iff _).2 (by rw [fmag_pack _ hlt, hthr.1 hf])⟩
  have hfin : m < 0x7F800000 := lt_of_le_of_ne h.1 fun e => absurd (hthr.2 e) (not_le.2 hf)
  refine ⟨(isFinite_iff _).2 (by rwa [fmag_pack _ hlt]), fun v _ => ?_⟩
  have scale : ∀ u : ℝ, |y / 2 ^ 149 - u| = |y - 2 ^ 149 * u| / 2 ^ 149 := by
    intro u
    rw [show y / 2 ^ 149 - u = (y - 2 ^ 149 * u) / 2 ^ 149 by field_simp, abs_div, abs_of_pos (a := (2 : ℝ) ^ 149) (by positivity)]
  have hw : (2 ^ 149 * (valueOf (pack false m) : ℝ)) = unitsOfMag m := by
    rw [valueOf_eq, fsign_pack _ hlt, fmag_pack _ hlt]
    simp only [Bool.false_eq_true, if_false]
    field_simp
  have heven : (pack false m).toNat % 2 = m % 2 := by simp [toNat_pack false hlt]
  rw [scale, scale, hw, heven, div_lt_div_iff_of_pos_right (by positivity), div_left_inj' (by positivity)]
  refine (h.nearest hy hfin (abs_valueOf v)).imp id fun e => ⟨e.1, e.2.imp (fun e => ?_) id⟩
  rw [← hw] at e
  exact_mod_cast mul_left_cancel₀ (by positivity) e

theorem fneg_pack (s : Bool) {m : Nat} (h : m < 2 ^ 31) : fneg (pack s m) = pack (!s) m := by
  rw [fneg, fsign_pack s h, fmag_pack s h]

@[simp] theorem fneg_fneg (a : F32) : fneg (fneg a) = a := by
  apply ext_sign_mag <;> simp

theorem valueOf_fneg (a : F32) : valueOf (fneg a) = -valueOf a := by
  have : signedUnits (fneg a) = -signedUnits a := by
    unfold signedUnits units
    cases h : fsign a <;> simp [h]
  unfold valueOf
  rw [this]
  push_cast
  ring

/-- Rounding commutes with the sign (R13). -/
theorem roundsTo_neg {x : ℝ} {w : F32} (h : RoundsTo x w) : RoundsTo (-x) (fneg w) := by
  obtain ⟨h1, h2, h3, h4⟩ := h
  refine ⟨fun hx => by simp [h2 (by linarith)], fun hx => by simp [h1 (by linarith)], ?_, ?_⟩
  · intro hx
    rw [abs_neg] at hx
    obtain ⟨hf, hn⟩ := h3 hx
    refine ⟨by simpa using hf, fun v hv => ?_⟩
    have := hn (fneg v) (by simpa using hv)
    have hpar : (fneg w).toNat % 2 = w.toNat % 2 := by
      rw [toNat_eq_sign_mag (fneg w), toNat_eq_sign_mag w, fmag_fneg]
      split <;> split <;> omega
    have e1 : |(-x) - (valueOf (fneg w) : ℝ)| = |x - (valueOf w : ℝ)| := by
      rw [valueOf_fneg, ← abs_neg]; congr 1; push_cast; ring
    have e2 : |(-x) - (valueOf v : ℝ)| = |x - (valueOf (fneg v) : ℝ)| := by
      rw [valueOf_fneg, ← abs_neg]; congr 1; push_cast; ring
    rw [e1, e2, hpar]
    rcases this with h | ⟨h, h'⟩
    · exact .inl h
    · exact .inr ⟨h, h'.imp_left fun e => by rw [valueOf_fneg] at e; rw [valueOf_fneg, ← e, neg_neg]⟩
  · intro hx
    rw [abs_neg] at hx
    have := h4 hx
    rw [isInf_iff] at *
    simpa using this

/-- A word packed from the sign of `x` and the rounded magnitude of `|x| = y` units is `round32(x)` (R13). -/
theorem roundsTo_pack_mag {s : Bool} {x y : ℝ} {m : Nat} (h : RoundsToMag y m) (hx : |x| = y / 2 ^ 149)
    (hneg : x < 0 → s = true) (hpos : 0 < x → s = false) : RoundsTo x (pack s m) := by
  have hy : 0 ≤ y := by
    have := abs_nonneg x
    rw [hx, le_div_iff₀ (by positivity)] at this
    linarith
  have R := roundsTo_of_mag h hy
  cases s with
  | false => rwa [← hx, abs_of_nonneg (not_lt.1 fun hc => by simpa using hneg hc)] at R
  | true =>
    have N := roundsTo_neg R
    rwa [← hx, abs_of_nonpos (not_lt.1 fun hc => by simpa using hpos hc), neg_neg,
      fneg_pack _ (lt_of_le_of_lt h.1 (by norm_num))] at N

/-- The same with the rounding function of the operations. -/
theorem roundsTo_pack {s : Bool} {num den : Nat} {x : ℝ} (hd : 0 < den) (hx : |x| = (num : ℝ) / den / 2 ^ 149)
    (hneg : x < 0 → s = true) (hpos : 0 < x → s = false) : RoundsTo x (pack s (roundMag num den)) :=
  roundsTo_pack_mag (roundsToMag_roundMag num hd) hx hneg hpos

end Sys2Proof.Machine
end

