-- ==== Sys2Proof/Laws/Process.lean ====
section
/-! SUPPORT. The exact cases of the arithmetic PROCESS uses: products and sums with zeros and with 1.0, the blend
factors of R109 and R110,
and that under FTZ_DAZ no stored value is subnormal. -/

namespace Sys2Proof.Machine

/-- A word of magnitude 0 is one of the two zeros. -/
theorem eq_zero_of_fmag_zero (z : F32) (hz : fmag z = 0) : z = plusZero ∨ z = minusZero := by
  cases hs : fsign z
  · left; apply ext_sign_mag <;> [rw [hs]; rw [hz]] <;> decide
  · right; apply ext_sign_mag <;> [rw [hs]; rw [hz]] <;> decide

/-- Flushing leaves zeros alone. -/
theorem flushSubnormal_zero (m : DenormalMode) (z : F32) (hz : fmag z = 0) : flushSubnormal m z = z := by
  cases m <;> simp [flushSubnormal, isSubnormal, hz]

/-- Flushing does not enlarge a magnitude. -/
theorem fmag_flushSubnormal_le (m : DenormalMode) (a : F32) : fmag (flushSubnormal m a) ≤ fmag a := by
  cases m
  · exact le_refl _
  · simp only [flushSubnormal]
    split
    · simp
    · exact le_refl _

/-- No flushed word is subnormal (R16). -/
theorem isSubnormal_flushSubnormal (a : F32) : isSubnormal (flushSubnormal .ftzDaz a) = false := by
  simp only [flushSubnormal]
  split
  · simp [isSubnormal]
  · rename_i h; simpa using h

/-- A zero times a finite value is a zero. -/
theorem mul32_zero_left (a : F32) (h : isFinite a = true) (z : F32) (hz : fmag z = 0) :
    mul32 z a = pack (fsign z != fsign a) 0 := by
  unfold mul32
  have h1 := not_isNaN_of_isFinite h
  have h2 := not_isInf_of_isFinite h
  have e1 : isNaN z = false := by simp [isNaN, hz]
  have e2 : isInf z = false := by simp [isInf, hz]
  have e3 : units z = 0 := by simp [units, hz, unitsOfMag]
  have e4 : roundMag 0 (2^149) = 0 := by decide
  simp only [h1, h2, e1, e2, e3, Nat.zero_mul, e4]
  rfl

/-- Multiplication commutes. -/
theorem fmul_comm (m : DenormalMode) (a b : F32) : fmul m a b = fmul m b a := by
  have : ∀ a z : F32, mul32 a z = mul32 z a := by
    intro a z
    unfold mul32
    simp only [Bool.or_comm, Nat.mul_comm (units a), bne_comm]
  unfold fmul underMode; rw [this]

/-- A zero times a finite value is a zero, in every mode. -/
theorem fmul_zero_left (m : DenormalMode) (z a : F32) (hz : fmag z = 0) (h : isFinite a = true) :
    fmul m z a = pack (fsign z != fsign a) 0 := by
  unfold fmul underMode
  rw [flushSubnormal_zero m z hz, mul32_zero_left _ (by rwa [isFinite_flushSubnormal]) z hz, fsign_flushSubnormal,
      flushSubnormal_zero]
  exact fmag_pack _ (by norm_num)

/-- A finite value times a zero is a zero, in every mode. -/
theorem fmul_zero_right (m : DenormalMode) (z a : F32) (hz : fmag z = 0) (h : isFinite a = true) :
    fmul m a z = pack (fsign a != fsign z) 0 := by
  rw [fmul_comm, fmul_zero_left m z a hz h, bne_comm]

/-- +0.0 plus a zero is +0.0. -/
theorem fadd_zero_plus (m : DenormalMode) (z : F32) (hz : fmag z = 0) : fadd m plusZero z = plusZero := by
  rcases eq_zero_of_fmag_zero z hz with rfl | rfl <;> cases m <;> decide

/-- A zero plus +0.0 is +0.0. -/
theorem fadd_plus_zero (m : DenormalMode) (z : F32) (hz : fmag z = 0) : fadd m z plusZero = plusZero := by
  rcases eq_zero_of_fmag_zero z hz with rfl | rfl <;> cases m <;> decide

/-- +0.0 minus a zero is +0.0. -/
theorem fsub_plus_zero (m : DenormalMode) (z : F32) (hz : fmag z = 0) : fsub m plusZero z = plusZero := by
  rcases eq_zero_of_fmag_zero z hz with rfl | rfl <;> cases m <;> decide

/-- A value times 1.0 is the value; under FTZ_DAZ, if it is not subnormal. -/
theorem fmul_one {m : DenormalMode} {a : F32} (h : isFinite a = true) (hns : m = .ftzDaz →
    isSubnormal a = false) : fmul m a one = a := by
  have ea : flushSubnormal m a = a := by
    cases m
    · rfl
    · simp [flushSubnormal, hns rfl]
  have eo : flushSubnormal m one = one := by cases m <;> decide
  unfold fmul underMode
  rw [ea, eo]
  have : mul32 a one = a := by
    unfold mul32
    have q1 : isNaN one = false := by decide
    have q2 : isInf one = false := by decide
    have q3 : units one = 2 ^ 149 := by decide
    have q4 : fsign one = false := by decide
    simp only [not_isNaN_of_isFinite h, q1, not_isInf_of_isFinite h, q2, q3, q4, Bool.or_self, Bool.false_eq_true,
        if_false]
    rw [show units a = unitsOfMag (fmag a) from rfl, roundMag_unitsOfMag (by positivity)
        (by rw [isFinite_iff] at h; omega)]
    simp only [Bool.bne_false]
    exact pack_sign_mag a
  rw [this, ea]

/-- A finite value plus a zero has the value; under FTZ_DAZ, if it is not subnormal. -/
theorem fadd_zero {m : DenormalMode} {a z : F32} (h : isFinite a = true) (hz : fmag z = 0) (hns : m = .ftzDaz →
    isSubnormal a = false) :
    valueOf (fadd m a z) = valueOf a ∧ valueOf (fadd m z a) = valueOf a ∧ isFinite (fadd m a z) = true ∧
        isFinite (fadd m z a) = true := by
  by_cases h0 : fmag a = 0
  · rcases eq_zero_of_fmag_zero z hz with rfl | rfl <;> rcases eq_zero_of_fmag_zero a h0 with rfl | rfl <;>
      cases m <;> decide +kernel
  have ea : flushSubnormal m a = a := by
    cases m
    · rfl
    · simp [flushSubnormal, hns rfl]
  have ez : flushSubnormal m z = z := flushSubnormal_zero m z hz
  have hzf : isFinite z = true := by rw [isFinite_iff, hz]; norm_num
  have hu : 0 < units a := by
    have := unitsOfMag_lt (Nat.pos_of_ne_zero h0)
    unfold units
    omega
  have su : signedUnits a ≠ 0 := by unfold signedUnits; split <;> omega
  have sz : signedUnits z = 0 := by unfold signedUnits units; rw [hz]; simp [unitsOfMag]
  have hn : (signedUnits a).natAbs = unitsOfMag (fmag a) := by unfold signedUnits units; split <;> simp
  have hs : (decide (signedUnits a < 0)) = fsign a := by
    unfold signedUnits
    cases fsign a
    · simp
    · simp; omega
  have hr : pack (decide (signedUnits a < 0)) (roundMag (signedUnits a).natAbs 1) = a := by
    rw [hn, hs]
    have := roundMag_unitsOfMag (m := fmag a) (den := 1) (by positivity) (by rw [isFinite_iff] at h; omega)
    rw [Nat.mul_one] at this
    rw [this]
    exact pack_sign_mag a
  have e1 : add32 a z = a := by
    unfold add32
    simp only [not_isNaN_of_isFinite h, not_isInf_of_isFinite h, not_isNaN_of_isFinite hzf,
        not_isInf_of_isFinite hzf, sz, Bool.or_self, Bool.false_eq_true, if_false, add_zero, if_neg su]
    exact hr
  have e2 : add32 z a = a := by
    unfold add32
    simp only [not_isNaN_of_isFinite h, not_isInf_of_isFinite h, not_isNaN_of_isFinite hzf,
        not_isInf_of_isFinite hzf, sz, Bool.or_self, Bool.false_eq_true, if_false, zero_add, if_neg su]
    exact hr
  unfold fadd underMode
  rw [ea, ez, e1, e2, ea]
  exact ⟨rfl, rfl, h, h⟩

/-- Magnitudes up to that of 1.0 are at most 2^149 units. -/
theorem unitsOfMag_le_one {m : Nat} (h : m ≤ 0x3F800000) : unitsOfMag m ≤ 2 ^ 149 := unitsOfMag_le h

/-- An exact value far below the overflow threshold rounds to a finite one. -/
theorem roundMag_finite_of_small {num den : Nat} (hd : 0 < den) (h : num < 2 ^ 250 * den) :
    roundMag num den < 0x7F800000 := by
  have h1 := roundMag_le_of_le (m := 0x7F7FFFFF) hd (num := num) (by
    rw [unitsOfMag_largest]
    exact le_trans h.le (Nat.mul_le_mul_right _ (by norm_num)))
  omega

/-- A product far below the overflow threshold is finite, with the product's sign. -/
theorem mul32_finite_of_small {a b : F32} (ha : isFinite a = true) (hb : isFinite b = true) (h :
    units a * units b < 2 ^ 250 * 2 ^ 149) :
    isFinite (mul32 a b) = true ∧ fsign (mul32 a b) = (fsign a != fsign b) := by
  unfold mul32
  simp only [not_isNaN_of_isFinite ha, not_isNaN_of_isFinite hb, not_isInf_of_isFinite ha, not_isInf_of_isFinite hb]
  have := roundMag_finite_of_small (num := units a * units b) (den := 2 ^ 149) (by positivity) h
  simp only [Bool.or_self, Bool.false_eq_true, if_false]
  refine ⟨?_, fsign_pack _ (roundMag_lt _ _)⟩
  rw [isFinite_iff, fmag_pack _ (roundMag_lt _ _)]
  exact this

/-- A sum far below the overflow threshold is finite; if it is not negative, and not both terms have sign 1, its sign
is 0. -/
theorem add32_finite_of_small {a b : F32} (ha : isFinite a = true) (hb : isFinite b = true) (h :
    (signedUnits a + signedUnits b).natAbs < 2 ^ 250) :
    isFinite (add32 a b) = true ∧ (0 ≤ signedUnits a + signedUnits b → (fsign a = false ∨
        fsign b = false) → fsign (add32 a b) = false) := by
  unfold add32
  simp only [not_isNaN_of_isFinite ha, not_isNaN_of_isFinite hb, not_isInf_of_isFinite ha, not_isInf_of_isFinite hb]
  have := roundMag_finite_of_small (num := (signedUnits a + signedUnits b).natAbs) (den := 1) (by positivity)
      (by simpa using h)
  simp only [Bool.or_self, Bool.false_eq_true, if_false]
  split
  · split
    · rename_i h
      refine ⟨by decide, ?_⟩
      simp only [Bool.and_eq_true] at h
      simp [h]
    · exact ⟨by decide, fun _ _ => by decide⟩
  · refine ⟨?_, ?_⟩
    · rw [isFinite_iff, fmag_pack _ (roundMag_lt _ _)]
      exact this
    · intro h _
      rw [fsign_pack _ (roundMag_lt _ _)]
      simpa using h

/-- The value of a word of sign 0, in units. -/
theorem signedUnits_of_pos {a : F32} (h : fsign a = false) : signedUnits a = units a := by simp [signedUnits, h]

/-- SHAPE * 2.0 is finite and of sign 0 (R109). -/
theorem doubled_unit_pos {m : DenormalMode} {s : F32} (h : inUnit s = true) :
    isFinite (fmul m s two) = true ∧ fsign (fmul m s two) = false := by
  have hf := isFinite_of_inUnit h
  rw [inUnit_iff] at h
  unfold fmul underMode
  rw [isFinite_flushSubnormal, fsign_flushSubnormal]
  have e : flushSubnormal m two = two := by cases m <;> decide
  rw [e]
  have := mul32_finite_of_small (a := flushSubnormal m s) (b := two) (by rwa [isFinite_flushSubnormal]) (by decide) (by
    have h1 := fmag_flushSubnormal_le m s
    have h2 : units (flushSubnormal m s) ≤ 2 ^ 149 := unitsOfMag_le_one (by omega)
    have h3 : units two = 2 ^ 150 := by decide
    rw [h3]
    calc units (flushSubnormal m s) * 2 ^ 150 ≤ 2 ^ 149 * 2 ^ 150 := Nat.mul_le_mul_right _ h2
      _ < 2 ^ 250 * 2 ^ 149 := by norm_num)
  rw [fsign_flushSubnormal, h.1] at this
  exact this

/-- SHAPE * 2.0 is at most 2.0 (R109). -/
theorem doubled_unit_le {m : DenormalMode} {s : F32} (h : inUnit s = true) : fmag (fmul m s two) ≤ 0x40000000 := by
  have hf := isFinite_of_inUnit h
  rw [inUnit_iff] at h
  unfold fmul underMode
  refine le_trans (fmag_flushSubnormal_le _ _) ?_
  have e : flushSubnormal m two = two := by cases m <;> decide
  rw [e]
  have ha : isFinite (flushSubnormal m s) = true := by rwa [isFinite_flushSubnormal]
  unfold mul32
  have q1 : isNaN two = false := by decide
  have q2 : isInf two = false := by decide
  simp only [not_isNaN_of_isFinite ha, q1, not_isInf_of_isFinite ha, q2, Bool.or_self, Bool.false_eq_true, if_false]
  rw [fmag_pack _ (roundMag_lt _ _)]
  apply roundMag_le_of_le (by positivity)
  have h2 : units (flushSubnormal m s) ≤ 2 ^ 149 := unitsOfMag_le_one (le_trans (fmag_flushSubnormal_le _ _) h.2)
  have h3 : units two = 2 ^ 150 := by decide
  have h4 : unitsOfMag 0x40000000 = 2 ^ 150 := by decide
  rw [h3, h4, Nat.mul_comm]
  exact Nat.mul_le_mul_left _ h2

/-- (SHAPE - 0.5) * 2.0 is finite, of sign 0 and at most 2.0 from SHAPE = 0.5 on (R110). -/
theorem upper_blend_factor {m : DenormalMode} {s : F32} (h : inUnit s = true) (hs : flt s half = false) :
    isFinite (fmul m (fsub m s half) two) = true ∧ fsign (fmul m (fsub m s half) two) = false ∧
    fmag (fmul m (fsub m s half) two) ≤ 0x40000000 := by
  have hf := isFinite_of_inUnit h
  rw [inUnit_iff] at h
  have hm : 0x3F000000 ≤ fmag s := by
    have n0 : isNaN half = false := by decide
    have k0 : orderKey half = 0x3F000000 := by decide
    have k1 : orderKey s = fmag s := by simp [orderKey, h.1]
    simp [flt, not_isNaN_of_isFinite hf, n0, k0, k1] at hs
    omega
  have es : flushSubnormal m s = s := by
    cases m
    · rfl
    · have : isSubnormal s = false := by simp [isSubnormal]; omega
      simp [flushSubnormal, this]
  have eh : flushSubnormal m half = half := by cases m <;> decide
  have hu : units s ≤ 2 ^ 149 := unitsOfMag_le_one h.2
  have hl : 2 ^ 148 ≤ units s := by
    have : unitsOfMag 0x3F000000 ≤ units s := unitsOfMag_le hm
    have e : unitsOfMag 0x3F000000 = 2 ^ 148 := by decide
    omega
  have esu : signedUnits s + signedUnits (fneg half) = (units s : Int) - 2 ^ 148 := by
    rw [signedUnits_of_pos h.1]
    have : signedUnits (fneg half) = -2 ^ 148 := by decide
    omega
  have hA := add32_finite_of_small (a := s) (b := fneg half) hf (by decide) (by rw [esu]; omega)
  have hsg := hA.2 (by rw [esu]; omega) (.inl h.1)
  have e1 : fsub m s half = flushSubnormal m (add32 s (fneg half)) := by
    unfold fsub underMode sub32; rw [es, eh]
  have hfm : fmag (add32 s (fneg half)) ≤ 0x3F800000 := by
    unfold add32
    have q1 : isNaN (fneg half) = false := by decide
    have q2 : isInf (fneg half) = false := by decide
    simp only [not_isNaN_of_isFinite hf, q1, not_isInf_of_isFinite hf, q2, esu, Bool.or_self, Bool.false_eq_true,
        if_false]
    split
    · split <;> decide
    · rw [fmag_pack _ (roundMag_lt _ _)]
      apply roundMag_le_of_le Nat.one_pos
      have e : unitsOfMag 0x3F800000 = 2 ^ 149 := by decide
      rw [e]
      omega
  have hin : inUnit (fsub m s half) = true := by
    rw [inUnit_iff, e1, fsign_flushSubnormal]
    exact ⟨hsg, le_trans (fmag_flushSubnormal_le _ _) hfm⟩
  exact ⟨(doubled_unit_pos hin).1, (doubled_unit_pos hin).2, doubled_unit_le hin⟩

/-- 1.0 - t is finite for a t of magnitude up to 2.0. -/
theorem isFinite_one_sub {m : DenormalMode} {t : F32} (ht : isFinite t = true) (h : fmag t ≤
    0x40000000) : isFinite (fsub m one t) = true := by
  unfold fsub underMode sub32
  rw [isFinite_flushSubnormal]
  have e : flushSubnormal m one = one := by cases m <;> decide
  rw [e]
  refine (add32_finite_of_small (by decide) (by rw [isFinite_fneg, isFinite_flushSubnormal]; exact ht) ?_).1
  have h1 : signedUnits one = 2 ^ 149 := by decide
  have h2 : (signedUnits (fneg (flushSubnormal m t))).natAbs ≤ 2 ^ 150 := by
    have : (signedUnits (fneg (flushSubnormal m t))).natAbs = unitsOfMag (fmag (flushSubnormal m t)) := by
      unfold signedUnits units; split <;> simp
    rw [this]
    calc _ ≤ unitsOfMag 0x40000000 := unitsOfMag_le (le_trans (fmag_flushSubnormal_le _ _) h)
      _ = _ := by decide
  omega

/-- Containment makes no subnormal. -/
theorem isSubnormal_contain {a : F32} (h : isSubnormal a = false) : isSubnormal (contain a) = false := by
  unfold contain; split
  · exact h
  · decide

/-- Under FTZ_DAZ the three stored values are not subnormal (R16). -/
theorem isSubnormal_processSignals (x : F32) (s : State) (h : s.cfg.denormalMode = .ftzDaz) :
    isSubnormal (processSignals x s).low = false ∧ isSubnormal (processSignals x s).band = false ∧
        isSubnormal (processSignals x s).high = false := by
  unfold processSignals svfUpdate
  rw [h]
  unfold lowUpdate bandUpdate highUpdate
  have a1 : ∀ a b, isSubnormal (fadd .ftzDaz a b) = false := fun a b => isSubnormal_flushSubnormal _
  have a2 : ∀ a b, isSubnormal (fsub .ftzDaz a b) = false := fun a b => isSubnormal_flushSubnormal _
  cases s.cfg.sanitizeMode with
  | allOnAny =>
    rw [sanitize_allOnAny]
    split
    · exact ⟨a1 _ _, a1 _ _, a2 _ _⟩
    · exact ⟨by decide, by decide, by decide⟩
  | perVariable => exact ⟨isSubnormal_contain (a1 _ _), isSubnormal_contain (a1 _ _), isSubnormal_contain (a2 _ _)⟩

end Sys2Proof.Machine
end

