-- ==== Sys2Proof/Laws/Reference.lean ====
section
/-! SUPPORT. The reference EXPMAP and COEF against the real functions they round (R124, R125), for every operand the rules
define them on; and the ranges a valid configuration gives their operands (R8). -/

namespace Sys2Proof.Machine

/-- A positive pattern is a positive finite value (R8). -/
theorem posFinite_of_positivePattern {a : F32} (h : positivePattern a = true) : posFinite a = true := by
  have := toNat_eq_sign_mag a
  have := fmag_lt a
  simp only [positivePattern, Bool.and_eq_true, decide_eq_true_eq] at h
  unfold posFinite isFinite
  cases hs : fsign a <;> simp [hs] at * <;> omega

/-- A positive finite value in terms of sign and magnitude. -/
theorem posFinite_iff (a : F32) : posFinite a = true ↔ fsign a = false ∧ 0 < fmag a ∧ fmag a < 0x7F800000 := by
  simp [posFinite, isFinite, and_assoc]

/-- The word of a positive finite value is its magnitude. -/
theorem toNat_of_posFinite {a : F32} (h : posFinite a = true) : a.toNat = fmag a := by
  rw [posFinite_iff] at h
  rw [toNat_eq_sign_mag, h.1]; simp

/-- The order of values is transitive. -/
theorem fle_trans {a b c : F32} (h1 : fle a b = true) (h2 : fle b c = true) : fle a c = true := by
  simp only [fle, Bool.and_eq_true, decide_eq_true_eq] at *
  exact ⟨⟨h1.1.1, h2.1.2⟩, le_trans h1.2 h2.2⟩

/-- In a valid configuration EXPMAP and COEF are used where R124 and R125 define them (R8). -/
theorem domain_of_valid {c : Config} (h : c.valid = true) {p : F32} (hp : inUnit p = true) :
    expmapDomain c.fMin c.fMax p = true ∧ expmapDomain c.qMin c.qMax p = true ∧ posFinite c.sampleRate = true ∧
        posFinite c.fClamp = true ∧ posFinite c.dampFloor = true := by
  simp only [Config.valid, Bool.and_eq_true, decide_eq_true_eq] at h
  obtain ⟨⟨⟨⟨⟨⟨⟨⟨⟨⟨⟨⟨h1, h2⟩, h3⟩, h4⟩, h5⟩, h6⟩, h7⟩, h8⟩, h9⟩, h10⟩, h11⟩, h12⟩, h13⟩ := h
  have key : ∀ {a b : F32}, posFinite a = true → posFinite b = true → a.toNat ≤ b.toNat → fle a b = true := by
    intro a b ha hb hab
    have ha' := (posFinite_iff a).1 ha
    have hb' := (posFinite_iff b).1 hb
    rw [toNat_of_posFinite ha, toNat_of_posFinite hb] at hab
    rw [fle_of_nonneg ha'.1 hb'.1 ((isFinite_iff _).2 ha'.2.2) ((isFinite_iff _).2 hb'.2.2)]
    simpa using hab
  have a2 := posFinite_of_positivePattern h2
  have a3 := posFinite_of_positivePattern h3
  have a5 := posFinite_of_positivePattern h5
  have a6 := posFinite_of_positivePattern h6
  refine ⟨?_, ?_, posFinite_of_positivePattern h1, posFinite_of_positivePattern h8, posFinite_of_positivePattern h9⟩
  · simp [expmapDomain, a2, a3, hp, key a2 a3 h4]
  · simp [expmapDomain, a5, a6, hp, key a5 a6 h7]

/-- The value of a word of sign 0. -/
theorem valueOf_of_pos {a : F32} (h : fsign a = false) : (valueOf a : ℝ) = (units a : ℝ) / 2 ^ 149 := by
  rw [valueOf_eq, h]; simp [units]

/-- A positive finite value is its own rounding (R13). -/
theorem roundsTo_self {a : F32} (h : posFinite a = true) : RoundsTo (valueOf a : ℝ) a := by
  have h' := (posFinite_iff a).1 h
  have := roundsTo_of_mag (roundsToMag_unitsOfMag h'.2.2.le) (by positivity)
  rwa [← h'.1, pack_sign_mag, ← units, ← valueOf_of_pos h'.1] at this

/-- The exact value `lo * (hi/lo)^p` of R124, in units. -/
noncomputable def expmapExact (lo hi p : F32) : ℝ :=
  (units lo : ℝ) * ((units hi : ℝ) / units lo) ^ ((units p : ℝ) / 2 ^ 149)

/-- The operands R124 defines EXPMAP on, in units. -/
theorem units_of_expmapDomain {lo hi p : F32} (h : expmapDomain lo hi p = true) :
    0 < units lo ∧ units lo ≤ units hi ∧ units p ≤ 2 ^ 149 := by
  simp only [expmapDomain, Bool.and_eq_true] at h
  obtain ⟨⟨⟨hl, hh⟩, hlh⟩, hp⟩ := h
  have hl' := (posFinite_iff lo).1 hl
  have hh' := (posFinite_iff hi).1 hh
  rw [fle_of_nonneg hl'.1 hh'.1 ((isFinite_iff _).2 hl'.2.2) ((isFinite_iff _).2 hh'.2.2)] at hlh
  exact ⟨lt_of_le_of_lt (Nat.zero_le _) (unitsOfMag_lt hl'.2.1), unitsOfMag_le (of_decide_eq_true hlh),
    unitsOfMag_le ((inUnit_iff p).1 hp).2⟩

/-- The exact value is non-decreasing in `p` (R124). -/
theorem expmapExact_mono {lo hi p r : F32} (h : expmapDomain lo hi p = true) (hpr : units p ≤ units r) :
    expmapExact lo hi p ≤ expmapExact lo hi r := by
  obtain ⟨ul, uh, -⟩ := units_of_expmapDomain h
  have ulR : (0 : ℝ) < units lo := by exact_mod_cast ul
  have rat : (1 : ℝ) ≤ (units hi : ℝ) / units lo := by
    rw [le_div_iff₀ ulR, one_mul]
    exact_mod_cast uh
  unfold expmapExact
  gcongr

theorem expmapExact_zero (lo hi : F32) : expmapExact lo hi plusZero = units lo := by
  rw [expmapExact, show units plusZero = 0 by decide]
  simp

theorem expmapExact_one {lo hi : F32} (h : 0 < units lo) : expmapExact lo hi one = units hi := by
  rw [expmapExact, show units one = 2 ^ 149 by decide]
  have : (units lo : ℝ) ≠ 0 := by exact_mod_cast h.ne'
  rw [Nat.cast_pow, Nat.cast_ofNat, div_self (by positivity), Real.rpow_one, mul_div_cancel₀ _ this]

/-- The exact value is in [lo, hi] (R124). -/
theorem expmapExact_bounds {lo hi p : F32} (h : expmapDomain lo hi p = true) :
    (units lo : ℝ) ≤ expmapExact lo hi p ∧ expmapExact lo hi p ≤ units hi := by
  obtain ⟨ul, -, up⟩ := units_of_expmapDomain h
  have h0 : expmapDomain lo hi plusZero = true := by
    simp only [expmapDomain, Bool.and_eq_true] at h ⊢
    exact ⟨h.1, rfl⟩
  refine ⟨expmapExact_zero lo hi ▸ expmapExact_mono h0 (Nat.zero_le _), expmapExact_one ul ▸ expmapExact_mono h ?_⟩
  exact up

/-- The exponent in lowest terms. -/
theorem exponentOf_spec {p : F32} (hp : fmag p < 0x3F800000) :
    (exponentOf p).1 ≤ (exponentOf p).2 ∧ 0 < (exponentOf p).2 ∧
    ((exponentOf p).1 : ℝ) / (exponentOf p).2 = (units p : ℝ) / 2 ^ 149 := by
  obtain ⟨h1, h2⟩ := unitsOfMag_scale hp
  unfold exponentOf units
  generalize sigOfMag (fmag p) = k at *
  have hn : 0 < 2 ^ scaleOfMag (fmag p) := by positivity
  generalize 2 ^ scaleOfMag (fmag p) = n at *
  have hg := Nat.gcd_pos_of_pos_right k hn
  have hn' := Nat.div_pos (Nat.le_of_dvd hn (Nat.gcd_dvd_right k n)) hg
  refine ⟨Nat.div_le_div_right h2.le, hn', ?_⟩
  rw [Nat.cast_div_div_div_cancel_right (Nat.gcd_dvd_right k n) (Nat.gcd_dvd_left k n),
    div_eq_div_iff (by exact_mod_cast hn.ne') (by positivity)]
  exact_mod_cast h1.symm

/-- The reference EXPMAP has sign 0 and the magnitude that the exact value rounds to, for every operand (R124, R13). -/
theorem roundsToMag_expmapRef {lo hi p : F32} (h : expmapDomain lo hi p = true) :
    fsign (expmapRef lo hi p) = false ∧ RoundsToMag (expmapExact lo hi p) (fmag (expmapRef lo hi p)) := by
  have h' := h
  obtain ⟨ul, uh, -⟩ := units_of_expmapDomain h
  simp only [expmapDomain, Bool.and_eq_true] at h'
  obtain ⟨⟨⟨hl, hh⟩, -⟩, hp⟩ := h'
  have hl' := (posFinite_iff lo).1 hl
  have hh' := (posFinite_iff hi).1 hh
  have hp' := (inUnit_iff p).1 hp
  unfold expmapRef
  split
  · rename_i h0
    rw [h0, expmapExact_zero]
    exact ⟨hl'.1, roundsToMag_unitsOfMag hl'.2.2.le⟩
  · split
    · rename_i h1
      rw [h1, expmapExact_one ul]
      exact ⟨hh'.1, roundsToMag_unitsOfMag hh'.2.2.le⟩
    · rename_i h1
      have hlt : fmag p < 0x3F800000 := lt_of_le_of_ne hp'.2 fun e =>
        h1 (ext_sign_mag (by rw [hp'.1]; decide) (by rw [e]; decide))
      obtain ⟨e1, e2, e3⟩ := exponentOf_spec hlt
      obtain ⟨r1, r2⟩ := ratioPower_spec ul (lt_of_lt_of_le ul uh) hlt
      have hP : 0 < 2 ^ powBits := by positivity
      have hPR : (0 : ℝ) < ((2 ^ powBits : Nat) : ℝ) := by exact_mod_cast hP
      have M : RoundsToMag (expmapExact lo hi p) (expmapMag lo hi p) := by
        refine roundsToMag_roundBetween (roundsToMag_roundMag _ hP) (roundsToMag_roundMag _ hP) ?_ ?_
          (fun m => ?_) fun m => ?_
        · rw [div_le_iff₀ hPR, expmapExact, mul_assoc, mul_comm (_ ^ _)]
          push_cast
          gcongr
        · rw [le_div_iff₀ hPR, expmapExact, mul_assoc, mul_comm (_ ^ _)]
          push_cast
          gcongr
        · rw [(comparePower_spec ul _ e1 e2 _).1, e3, expmapExact]
        · rw [(comparePower_spec ul _ e1 e2 _).2, e3, expmapExact]
      have hm := lt_of_le_of_lt M.1 (show 0x7F800000 < 2 ^ 31 by norm_num)
      exact ⟨fsign_pack _ hm, by rwa [fmag_pack _ hm]⟩

/-- The folded angle is at most a quarter turn. -/
theorem quarterPart_le (fhz sr : F32) (hs : 0 < units sr) : 2 * quarterPart fhz sr ≤ units sr := by
  unfold quarterPart foldQuarter
  have := Nat.mod_lt (turnPart fhz sr) hs
  split <;> omega

/-- The sine of the whole angle from that of the folded one: up to sign the same, unless the angle is an odd number
of half turns. -/
theorem sin_quarterPart (a b : Nat) (hb : 0 < b) :
    Real.sin (Real.pi * (a : ℝ) / b) =
      (if b < a % (2 * b) then -1 else 1) * Real.sin (Real.pi * ((foldQuarter (a % (2 * b) % b) b : Nat) / b)) ∨
          a % (2 * b) = b := by
  have hbR : (0 : ℝ) < b := by exact_mod_cast hb
  have e := Nat.div_add_mod a (2 * b)
  set t := a % (2 * b) with ht
  have htl : t < 2 * b := Nat.mod_lt _ (by positivity)
  have e1 : Real.sin (Real.pi * (a : ℝ) / b) = Real.sin (Real.pi * ((t : ℝ) / b)) := by
    have : (a : ℝ) = 2 * b * ((a / (2 * b) : Nat) : ℝ) + t := by exact_mod_cast e.symm
    have h2 : Real.pi * (a : ℝ) / b = Real.pi * ((t : ℝ) / b) + ((a / (2 * b) : Nat) : ℝ) * (2 * Real.pi) := by
      rw [this]; field_simp; ring
    rw [h2, Real.sin_add_nat_mul_two_pi]
  by_cases hc : t = b
  · exact .inr hc
  left
  rw [e1]
  have fold : ∀ r : Nat, r < b → Real.sin (Real.pi * ((foldQuarter r b : Nat) / b)) = Real.sin (Real.pi * ((r :
      ℝ) / b)) := by
    intro r hr
    unfold foldQuarter
    split
    · rw [Nat.cast_sub hr.le, ← Real.sin_pi_sub]
      congr 1; field_simp; ring
    · rfl
  split
  · rename_i h
    have hm : t % b = t - b := by
      rw [Nat.mod_eq_sub_mod h.le, Nat.mod_eq_of_lt (by omega)]
    rw [hm, fold _ (by omega), Nat.cast_sub h.le]
    have : Real.pi * ((t : ℝ) / b) = Real.pi * (((t : ℝ) - b) / b) + Real.pi := by field_simp; ring
    rw [this, Real.sin_add_pi]; ring
  · have hm : t % b = t := Nat.mod_eq_of_lt (by omega)
    rw [hm, fold _ (by omega), one_mul]

/-- The magnitude that the exact value `2 * sin(pi * r/b)`, in units, rounds to, for every angle of at most a quarter turn
(R125, R13). -/
theorem roundsToMag_sineMag {r b : Nat} (hb : 0 < b) (hr : 2 * r ≤ b) :
    RoundsToMag (2 ^ 150 * Real.sin (Real.pi * (r / b))) (sineMag r b) := by
  have e := sine_enclosure hb hr
  have p := sinRatio_pos hb hr
  have hg := Nat.gcd_pos_of_pos_right r hb
  have hb' := Nat.div_pos (Nat.le_of_dvd hb (Nat.gcd_dvd_right r b)) hg
  have hr' : 2 * (r / r.gcd b) ≤ b / r.gcd b := by
    rw [← Nat.mul_div_assoc _ (Nat.gcd_dvd_left r b)]
    exact Nat.div_le_div_right hr
  have hq : ((r / r.gcd b : Nat) : ℝ) / (b / r.gcd b : Nat) = r / b :=
    Nat.cast_div_div_div_cancel_right (Nat.gcd_dvd_right r b) (Nat.gcd_dvd_left r b)
  have hy : (2 : ℝ) ^ 149 * (2 * Real.sin (Real.pi * (r / b))) = 2 ^ 150 * Real.sin (Real.pi * (r / b)) := by ring
  rw [hy] at e
  refine roundsToMag_roundBetween (roundsToMag_roundMag _ (Nat.mul_pos (by positivity) p.1))
    (roundsToMag_roundMag _ (Nat.mul_pos (Nat.mul_pos (by positivity) p.2) (by positivity))) e.1 e.2 (fun m => ?_) fun m => ?_
  · rw [(compareSine_spec hb' hr' _).1, hq, show ∀ x : ℝ, 2 ^ 151 * x = 2 * (2 ^ 150 * x) from fun x => by ring]
  · rw [(compareSine_spec hb' hr' _).2, hq, show ∀ x : ℝ, 2 ^ 151 * x = 2 * (2 ^ 150 * x) from fun x => by ring]

/-- That magnitude is at most that of 2.0 (R125). -/
theorem sineMag_le {r b : Nat} (hb : 0 < b) (hr : 2 * r ≤ b) : sineMag r b ≤ 0x40000000 := by
  refine (roundsToMag_sineMag hb hr).mono (roundsToMag_unitsOfMag (by norm_num)) ?_
  rw [show unitsOfMag 0x40000000 = 2 ^ 150 by decide]
  have := Real.sin_le_one (Real.pi * (r / b))
  push_cast
  linarith

/-- The operands R125 defines COEF on, in units. -/
theorem units_of_coefDomain {fhz sr : F32} (h : coefDomain fhz sr = true) : fmag fhz < 0x7F800000 ∧
    (valueOf fhz : ℝ) = (units fhz : ℝ) / 2 ^ 149 ∧ 0 < units sr ∧ (valueOf sr : ℝ) = (units sr : ℝ) / 2 ^ 149 := by
  simp only [coefDomain, Bool.and_eq_true] at h
  obtain ⟨⟨h1, h2⟩, h3⟩ := h
  have h3' := (posFinite_iff _).1 h3
  refine ⟨(isFinite_iff _).1 h1, ?_, lt_of_le_of_lt (Nat.zero_le _) (unitsOfMag_lt h3'.2.1), valueOf_of_pos h3'.1⟩
  cases hs : fsign fhz
  · exact valueOf_of_pos hs
  · have k : orderKey plusZero = 0 := by decide
    have k2 : orderKey fhz = -(fmag fhz : Int) := by simp [orderKey, hs]
    simp only [fle, Bool.and_eq_true, decide_eq_true_eq, k, k2] at h2
    have : fmag fhz = 0 := by omega
    rw [valueOf_eq]; unfold units; rw [this]; simp [unitsOfMag]

end Sys2Proof.Machine
end

