-- ==== Sys2Proof/Laws/Streams.lean ====
section
/-! SUPPORT. Command streams: what a step over the next delivered word is in terms of that word's effect, and that effects do
not look at the words behind them (R55); words and their transport bytes (R51). -/

namespace Sys2Proof.Machine

/-- A run of `k + 1` steps whose first step answers a next state. -/
theorem run_succ (M : Host.Core) (k : Nat) {s t : M.State} (h : M.step s = .next t) : M.run (k + 1) s = M.run k t := by
  rw [Host.Core.run, h]

/-- A command's effect, where the word decodes. -/
theorem commandEffect_of_decode {w : Cmd} {i : Instr} {s t : State} (hd : decode w = .ok i) (h : exec i s = .next t) :
    commandEffect s w = t := by
  unfold commandEffect
  rw [hd]
  simp only [h]

/-- An illegal word has no effect (R142). -/
theorem commandEffect_of_illegal {w : Cmd} {e : DecodeError} (s : State) (hd : decode w = .error e) :
    commandEffect s w = s := by
  unfold commandEffect
  rw [hd]

/-- No effect looks at the delivered words. -/
theorem commandEffect_withInbox (s : State) (w : Cmd) (ws : List Cmd) :
    commandEffect { s with inbox := ws } w = { commandEffect s w with inbox := ws } := by
  cases hd : decode w with
  | error e => rw [commandEffect_of_illegal _ hd, commandEffect_of_illegal _ hd]
  | ok i =>
    obtain ⟨t, ht⟩ := exec_next i s
    rw [commandEffect_of_decode hd (exec_withInbox i s t ws ht), commandEffect_of_decode hd ht]

/-- A step over a delivered word is that word's effect, without the word in the stream (R55, R156). -/
theorem step_eq_commandEffect {s : State} {w : Cmd} {rest : List Cmd} (h : s.inbox = w :: rest) :
    step s = .next { commandEffect s w with inbox := rest } := by
  cases hd : decode w with
  | error e => rw [step_of_illegal h hd, commandEffect_of_illegal _ hd]
  | ok i =>
    obtain ⟨t, ht⟩ := exec_next i s
    rw [step_of_decode h hd, commandEffect_of_decode hd ht, exec_withInbox i s t rest ht]

/-- A word put together from its eight bytes (R51). -/
theorem cmdOfBytes_bytes (w : Cmd) :
    cmdOfBytes (w.extractLsb' 0 8) (w.extractLsb' 8 8) (w.extractLsb' 16 8) (w.extractLsb' 24 8) (w.extractLsb' 32 8)
      (w.extractLsb' 40 8) (w.extractLsb' 48 8) (w.extractLsb' 56 8) = w := by
  apply BitVec.eq_of_getLsbD_eq
  intro k hk
  simp only [cmdOfBytes, BitVec.getLsbD_append, BitVec.getLsbD_extractLsb']
  interval_cases k <;> simp

end Sys2Proof.Machine
end

