-- ==== Sys2Proof/Tests/Slice0.lean ====
section
/-! SUPPORT. The model's own tests: the checks of WellFormed on terms they refuse, command words written out bit by bit from the
spec's encodings, single steps against the vectors of 95_test_vectors, and for every statement with hypotheses a state and
operands that meet them all. -/

namespace Sys2Proof.Tests

open Sys2Proof Sys2Proof.Machine

/-- What a next state is tested for; a fault or a refusal fails the test. -/
def afterwards (o : Host.Outcome State Fault Refusal) (p : State → Bool) : Bool :=
  match o with
  | .next t => p t
  | .fault _ => false
  | .refused _ => false

/-- An instance of the default configuration with the state of V4.1 after step 2: LOW 0.25, BAND 0.625, HIGH 0.25. -/
def liveState : State :=
  { State.construct Config.default with low := 0x3E800000#32, band := 0x3F200000#32, high := 0x3E800000#32 }

/-- LOW, BAND and HIGH set directly, as the conventions of 95_test_vectors say. -/
def withState (low band high : F32) (s : State) : State := { s with low := low, band := band, high := high }

/-- SHAPE set directly. -/
def withShape (shape : F32) (s : State) : State := { s with shape := shape }

/-- The coefficients of V4.1, set directly: F = 0.5, DAMP = 1.0. -/
def withCoefficients (s : State) : State := { s with f := 0x3F000000#32, damp := 0x3F800000#32 }

/-- An instance of another configuration, not yet used. -/
def otherConfig (c : Config) : State := State.construct c

/-- FREQ_HZ is the given frequency at every setting: F_MIN = F_MAX. -/
def fixedFrequency (fhz : F32) : Config := { Config.default with fMin := fhz, fMax := fhz }

/-! ## The checks of WellFormed refuse -/

theorem test_wellFormed_reset : (Instr.reset 1#32).wellFormed = false ∧ (Instr.reset 0#32).wellFormed = true := by decide

theorem test_legalWord : legalWord 0x0000000000000105#64 = false ∧ legalWord 0x3F80000080000001#64 = false ∧
    legalWord 0x0000000000000000#64 = false ∧ legalWord 0x0000000000000006#64 = false ∧
    legalWord 0xDEADBEEF00000005#64 = true := by decide

theorem test_positivePattern : positivePattern 0x00000000#32 = false ∧ positivePattern 0x80000001#32 = false ∧
    positivePattern 0x7F800000#32 = false ∧ positivePattern 0x00000001#32 = true := by decide

theorem test_unitPattern : unitPattern 0x80000000#32 = false ∧ unitPattern 0x3F800001#32 = false ∧
    unitPattern 0x3F800000#32 = true := by decide

theorem test_valid_bounds : ({ Config.default with fMin := 0x00000000#32 } : Config).valid = false ∧
    ({ Config.default with fMax := 0x7F800000#32 } : Config).valid = false ∧
    ({ Config.default with fMin := 0x469C4001#32 } : Config).valid = false ∧
    ({ Config.default with qMin := 0xBF000000#32 } : Config).valid = false ∧
    ({ Config.default with qMax := 0x7FC00000#32 } : Config).valid = false ∧
    ({ Config.default with qMin := 0x41A00001#32 } : Config).valid = false := by decide

theorem test_valid_others : ({ Config.default with sampleRate := 0x00000000#32 } : Config).valid = false ∧
    ({ Config.default with fClamp := 0x80000000#32 } : Config).valid = false ∧
    ({ Config.default with dampFloor := 0x00000000#32 } : Config).valid = false ∧
    ({ Config.default with shapeSplit := 0x3E800000#32 } : Config).valid = false ∧
    ({ Config.default with freqReset := 0x80000000#32 } : Config).valid = false ∧
    ({ Config.default with qReset := 0x3F800001#32 } : Config).valid = false ∧
    ({ Config.default with shapeReset := 0x7FC00000#32 } : Config).valid = false := by decide

/-! ## Command words, bit by bit: DATA 63:32, RSV 31:8, OP 7:0 (R71, R73) -/

/-- V2.1: 1.0 has sign 0, exponent 01111111, fraction 0. -/
theorem test_decode_process :
    decode 0b0011111110000000000000000000000000000000000000000000000000000001#64 = .ok (.process 0x3F800000#32) := by decide

/-- V2.6: 0.5 has exponent 01111110. -/
theorem test_decode_setfreq :
    decode 0b0011111100000000000000000000000000000000000000000000000000000010#64 = .ok (.setfreq 0x3F000000#32) := by decide

/-- V2.7: 0.25 has exponent 01111101. -/
theorem test_decode_setq :
    decode 0b0011111010000000000000000000000000000000000000000000000000000011#64 = .ok (.setq 0x3E800000#32) := by decide

/-- V2.9: -0.0 has the sign bit alone. -/
theorem test_decode_setshape :
    decode 0b1000000000000000000000000000000000000000000000000000000000000100#64 = .ok (.setshape 0x80000000#32) := by decide

/-- V2.11: the DATA bits of RESET are ignored, and kept in the syntax. -/
theorem test_decode_reset :
    decode 0b1101111010101101101111101110111100000000000000000000000000000101#64 = .ok (.reset 0xDEADBEEF#32) := by decide

/-- V2.12 to V2.16. -/
theorem test_decode_illegal :
    decode 0x0000000000000000#64 = .error (.reservedOpcode 0x00#8) ∧
    decode 0x0000000000000006#64 = .error (.reservedOpcode 0x06#8) ∧
    decode 0x00000000000000FF#64 = .error (.reservedOpcode 0xFF#8) ∧
    decode 0x0000000000000105#64 = .error (.reservedNotZero 0x000001#24) ∧
    decode 0x3F80000080000001#64 = .error (.reservedNotZero 0x800000#24) := by decide

/-- A row of the opcode table by its fixed bits alone. -/
theorem test_decodeTableWord : decodeTableWord 64 0x3F80000000000003 = some (.setq 0x3F800000#32) ∧
    decodeTableWord 64 5 = some (.reset 0#32) ∧ decodeTableWord 64 0x101 = none := by decide

/-- The bytes of 0x3F80000000000001 as the note under V2.19 gives them; seven bytes are no command yet. -/
theorem test_bytes :
    cmdBytes 0x3F80000000000001#64 = [0x01#8, 0x00#8, 0x00#8, 0x00#8, 0x00#8, 0x00#8, 0x80#8, 0x3F#8] ∧
    decodeBytes [0x01#8, 0x00#8, 0x00#8, 0x00#8, 0x00#8, 0x00#8, 0x80#8] = .error .incompleteWord := by decide

/-- V2.5, V2.19, and a literal that needs rounding: 0.85 of V3.1. -/
theorem test_assemble :
    assembleLine ['P', 'R', 'O', 'C', 'E', 'S', 'S', ' ', '0', 'x', '0', '0', '0', '0', '0', '0', '0', '1'] =
      some [0x0000000100000001#64] ∧
    assembleLine ['S', 'I', 'L', 'E', 'N', 'C', 'E', ' ', '3'] =
      some [0x0000000000000001#64, 0x0000000000000001#64, 0x0000000000000001#64] ∧
    assembleLine ['S', 'E', 'T', 'F', 'R', 'E', 'Q', ' ', '0', '.', '8', '5'] = some [0x3F59999A00000002#64] ∧
    assembleLine ['S', 'E', 'T', 'Q'] = none := by decide +kernel

/-! ## Single steps -/

/-- V4.2 step 2 at SHAPE = 0.75. -/
theorem test_process_rounds : afterwards
    (step (State.withFetchWord (withState 0x00000000#32 0x3DB87B6C#32 0x3F800000#32 (withShape 0x3F400000#32
      { State.reset with f := 0x3DB87B6C#32, damp := 0x3EA1E89B#32 })) 64 0x0000000000000001))
    (fun t => t.low = 0x3C04F1A7#32 && t.band = 0x3DB1BAE9#32 && t.high = 0xBD15E9A8#32 &&
      t.responses = [0x3CCD8C2A#32]) = true := by decide +kernel

/-- V4.6, FTZ_DAZ row. -/
theorem test_process_ftz : afterwards
    (step (State.withFetchWord (withState 0x00000000#32 0x00800000#32 0x00000000#32 (withShape 0x3F000000#32
      (withCoefficients (otherConfig { Config.default with denormalMode := .ftzDaz })))) 64 0x0000000000000001))
    (fun t => t.low = 0x00000000#32 && t.band = 0x00800000#32 && t.high = 0x80800000#32 &&
      t.responses = [0x00800000#32]) = true := by decide +kernel

/-- V3.1 at p = 0.5. -/
theorem test_setfreq : afterwards (step (State.reset.withFetchWord 64 0x3F00000000000002))
    (fun t => t.freqN = 0x3F000000#32 && t.freqHz = 0x441E1D27#32 && t.f = 0x3DB87B6C#32) = true := by decide +kernel

/-- V3.2, SAMPLE_RATE 16000 at p = 1.0: a negative F, no lower clamp. -/
theorem test_setfreq_negative : afterwards
    (step (State.withFetchWord (otherConfig { Config.default with sampleRate := 0x467A0000#32 }) 64 0x3F80000000000002))
    (fun t => t.freqHz = 0x469C4000#32 && t.f = 0xBFB504F3#32) = true := by decide +kernel

/-- V3.3 at p = 0.25. -/
theorem test_setq : afterwards (step (State.reset.withFetchWord 64 0x3E80000000000003))
    (fun t => t.qN = 0x3E800000#32 && t.q = 0x3FA0F394#32 && t.damp = 0x3F4B96DD#32) = true := by decide +kernel

/-- V3.5: Q_MAX = 200, the damping floor. -/
theorem test_setq_floor : afterwards
    (step (State.withFetchWord (otherConfig { Config.default with qMax := 0x43480000#32 }) 64 0x3F80000000000003))
    (fun t => t.q = 0x43480000#32 && t.damp = 0x3C23D70A#32) = true := by decide +kernel

/-- V3.7: 1.5 is clamped to 1.0. -/
theorem test_setshape : afterwards (step (State.reset.withFetchWord 64 0x3FC0000000000004))
    (fun t => t.shape = 0x3F800000#32 && t.responses = []) = true := by decide +kernel

/-- V3.4: a negative NaN is ignored. -/
theorem test_setshape_nan : afterwards
    (step (State.withFetchWord { State.reset with shape := 0x3E800000#32 } 64 0xFFC0000000000004))
    (fun t => t.shape = 0x3E800000#32 && t.responses = []) = true := by decide +kernel

/-- V5.2: (2, -5, -8), RESET with DATA. -/
theorem test_reset : afterwards
    (step (State.withFetchWord (withState 0x40000000#32 0xC0A00000#32 0xC1000000#32 (withShape 0x3F000000#32 State.reset)) 64
      0xDEADBEEF00000005))
    (fun t => t.low = 0x00000000#32 && t.band = 0x00000000#32 && t.high = 0x00000000#32 && t.shape = 0x3F000000#32 &&
      t.responses = []) = true := by decide +kernel

/-- V5.4: a RESET with a bit of RSV set is no RESET. -/
theorem test_illegal : afterwards
    (step (State.withFetchWord (withState 0x40000000#32 0xC0A00000#32 0xC1000000#32 State.reset) 64 0x0000000000000105))
    (fun t => t.low = 0x40000000#32 && t.band = 0xC0A00000#32 && t.high = 0xC1000000#32 && t.responses = [] &&
      t.inbox = []) = true := by decide +kernel

/-- The exact comparisons, each against the value known from elsewhere: 2*sin(pi/6) is 1.0, 2*sin(pi/4) and 1.0*(2.0/1.0)^0.5
are the square root of 2, 0x3FB504F3 in binary32, and 2*sin(pi/2) is 2.0. -/
theorem test_exact_comparisons :
    compareSine 1 6 (2 ^ 150) = .eq ∧ compareSine 1 6 (midSum 0x3F800000) = .lt ∧ compareSine 1 2 (2 ^ 151) = .eq ∧
    compareSine 1 4 (midSum 0x3FB504F2) = .gt ∧ compareSine 1 4 (midSum 0x3FB504F3) = .lt ∧
    exponentOf half = (1, 2) ∧ comparePower (units one) (units two) (1, 2) (midSum 0x3FB504F2) = .gt ∧
    comparePower (units one) (units two) (1, 2) (midSum 0x3FB504F3) = .lt := by decide +kernel

/-- From a lower end too low by one, the search finds the square root of 2; a tie goes to the even magnitude. -/
theorem test_round_between :
    roundBetween (fun m => compareSine 1 4 (midSum m)) 0x3FB504F2 0x3FB504F4 = 0x3FB504F3 ∧
    roundsAbove 0x3F800000 .eq = false ∧ roundsAbove 0x3F800001 .eq = true := by decide +kernel

/-! ## States and operands that meet the hypotheses of the statements -/

theorem test_witness_ConstructionMeetsInvariant : Config.default.valid = true ∧
    ({ Config.default with sanitizeMode := .perVariable, denormalMode := .ftzDaz, freqReset := one } : Config).valid = true := by
  decide

theorem test_inv_liveState (ws : List Cmd) : Inv { liveState with inbox := ws } :=
  have h : Config.default.valid = true ∧ isFinite 0x3E800000#32 = true ∧ isFinite 0x3F200000#32 = true ∧
      inUnit 0x00000000#32 = true := by decide
  ⟨h.1, h.2.1, h.2.2.1, h.2.1, h.2.2.2, h.2.2.2, h.2.2.2, rfl, rfl, rfl, rfl, Nat.succ_pos 7⟩

theorem test_witness_StepKeepsInvariant :
    Inv { liveState with inbox := [0x3F80000000000001#64] } ∧
    step { liveState with inbox := [0x3F80000000000001#64] } = exec (.process 0x3F800000#32) liveState ∧
    (∃ t, exec (.process 0x3F800000#32) liveState = .next t) :=
  ⟨test_inv_liveState _, rfl, ⟨_, rfl⟩⟩

theorem test_witness_StepKeepsConfiguration : step liveState = .next liveState := rfl

/-- Both modes of R106, each with all values finite (x = 1.0) and with a non-finite one (x a NaN). -/
theorem test_witness_ProcessStoresSanitisedUpdate :
    liveState.cfg.sanitizeMode = .allOnAny ∧
    (otherConfig { Config.default with sanitizeMode := .perVariable }).cfg.sanitizeMode = .perVariable ∧
    anyNonFinite (svfUpdate .ieee 0x3F000000#32 0x3F800000#32 0x3E800000#32 0x3F200000#32 0x3F800000#32) = false ∧
    anyNonFinite (svfUpdate .ieee 0x3F000000#32 0x3F800000#32 0x3E800000#32 0x3F200000#32 0x7FC00000#32) = true := by
  decide +kernel

theorem test_witness_CommandsWriteOnlyTheirRegisters :
    (∃ t, exec (.process one) liveState = .next t) ∧ (∃ t, exec (.setfreq one) liveState = .next t) ∧
    (∃ t, exec (.setq one) liveState = .next t) ∧ (∃ t, exec (.setshape one) liveState = .next t) ∧
    (∃ t, exec (.reset 0#32) liveState = .next t) := ⟨⟨_, rfl⟩, ⟨_, rfl⟩, ⟨_, rfl⟩, ⟨_, rfl⟩, ⟨_, rfl⟩⟩

theorem test_witness_HighIsNeverRead : ∃ t, exec (.process one) liveState = .next t := ⟨_, rfl⟩

theorem test_witness_NonFiniteInputIsContained :
    isFinite 0x7F800001#32 = false ∧ isFinite 0xFF800000#32 = false ∧ inUnit liveState.shape = true ∧
    liveState.cfg.shapeSplit = half ∧ liveState.cfg.sanitizeMode = .allOnAny ∧
    (otherConfig { Config.default with sanitizeMode := .perVariable }).cfg.sanitizeMode = .perVariable ∧
    inUnit (otherConfig { Config.default with sanitizeMode := .perVariable }).shape = true ∧
    (otherConfig { Config.default with sanitizeMode := .perVariable }).cfg.shapeSplit = half := by decide

theorem test_witness_SanitizeModesAgreeOnFinite :
    anyNonFinite (svfUpdate .ieee 0x3F000000#32 0x3F800000#32 0x3E800000#32 0x3F200000#32 one) = false ∧
    (withCoefficients liveState).f = 0x3F000000#32 ∧ (withCoefficients liveState).damp = 0x3F800000#32 ∧
    (withCoefficients liveState).low = 0x3E800000#32 ∧ (withCoefficients liveState).band = 0x3F200000#32 ∧
    (withCoefficients liveState).cfg.denormalMode = .ieee := by decide +kernel

theorem test_witness_SanitizeModesAgreeOnFinite_next : ∃ t, exec (.process one) (withCoefficients liveState) = .next t :=
  ⟨_, rfl⟩

theorem test_witness_ZeroInputOnZeroStateIsSilent :
    State.reset.low = plusZero ∧ State.reset.band = plusZero ∧ State.reset.high = plusZero ∧
    inUnit State.reset.shape = true ∧ State.reset.cfg.shapeSplit = half := by decide

theorem test_witness_ShapeEndPointsSelectPureOutputs :
    liveState.cfg.shapeSplit = half ∧ liveState.shape = plusZero ∧
    ({ liveState with shape := half } : State).shape = half ∧ ({ liveState with shape := one } : State).shape = one := by
  decide

theorem test_witness_WorkedExampleOfProcess :
    let s : State := { withCoefficients State.reset with shape := 0x3E800000#32 }
    s.f = 0x3F000000#32 ∧ s.damp = 0x3F800000#32 ∧ s.shape = 0x3E800000#32 ∧ s.cfg.shapeSplit = half ∧
    s.low = plusZero ∧ s.band = plusZero ∧ s.high = plusZero := by decide

/-- Each clause of R15 at its ends: -0.0, the least subnormal, the value below 1.0, 1.0, a NaN. -/
theorem test_witness_ClampFollowsNormalizedRange :
    fle minusZero plusZero = true ∧ fle 0x80000001#32 plusZero = true ∧ fle 0x00000001#32 plusZero = false ∧
    fle one 0x00000001#32 = false ∧ fle one 0x3F7FFFFF#32 = false ∧ fle one one = true ∧ isNaN 0x3F7FFFFF#32 = false ∧
    isNaN 0x00000001#32 = false ∧ isNaN 0x7F800001#32 = true := by decide

theorem test_witness_setters : isNaN 0x3F000000#32 = false ∧ isNaN plusInf = false ∧ isNaN minusInf = false := by decide

theorem test_witness_NaNParameterWriteIsIgnored : isNaN 0x7F800001#32 = true ∧ isNaN 0xFFFFFFFF#32 = true := by decide

/-- For SetterWithHeldValueIsIdle, DerivedRegistersStayInRange and ResetThenZeroInputIsSilent. -/
theorem test_witness_Inv : Inv liveState := test_inv_liveState []

theorem test_witness_DampingFloorInertUpToHundred :
    isNaN one = false ∧ Config.default.valid = true ∧ Config.default.dampFloor = 0x3C23D70A#32 ∧
    fle Config.default.qMax 0x41A00000#32 = true ∧ inUnit one = true ∧
    ({ Config.default with qMax := 0x42C80000#32 } : Config).valid = true ∧ fle 0x42C80000#32 0x42C80000#32 = true := by
  decide

theorem test_witness_ExpmapKeepsEndPointsAndRange :
    expmapDomain 0x41A00000#32 0x469C4000#32 plusZero = true ∧ expmapDomain 0x41A00000#32 0x469C4000#32 one = true ∧
    expmapDomain 0x41A00000#32 0x41A00000#32 0x3F000000#32 = true ∧ NumericFn.configured 7 = .configured 7 ∧
    inUnit one = true ∧ fle 0x3F000000#32 one = true := by decide

/-- R124 at an inner operand and at both ends. -/
theorem test_witness_ExpmapReferenceIsCorrectlyRounded :
    expmapDomain 0x41A00000#32 0x469C4000#32 0x3F000000#32 = true ∧
    expmapDomain 0x41A00000#32 0x469C4000#32 plusZero = true ∧ expmapDomain 0x41A00000#32 0x469C4000#32 one = true := by
  decide

theorem test_witness_ExpmapReferenceIsMonotone :
    expmapDomain 0x3F000000#32 0x41A00000#32 0x3E800000#32 = true ∧
    expmapDomain 0x3F000000#32 0x41A00000#32 0x3F400000#32 = true ∧ fle 0x3E800000#32 0x3F400000#32 = true := by
  decide

/-- R125 at 20 Hz, in the second half turn (20000 Hz at a rate of 16000 Hz), and where the sine is zero. -/
theorem test_witness_CoefReferenceIsCorrectlyRounded :
    coefDomain 0x41A00000#32 0x472C4400#32 = true ∧ coefDomain 0x469C4000#32 0x467A0000#32 = true ∧
    coefDomain 0x472C4400#32 0x472C4400#32 = true := by decide

theorem test_witness_CoefIsFiniteWithinTwo :
    coefDomain plusZero 0x00000001#32 = true ∧ coefDomain 0x7F7FFFFF#32 0x472C4400#32 = true := by decide

/-- A sixth of 44100 Hz exactly (7350 Hz), and half of it (22050 Hz). -/
theorem test_witness_FrequencyClampActiveFromSixthOfRate :
    (fixedFrequency 0x45E5B000#32).valid = true ∧ (fixedFrequency 0x45E5B000#32).coef = .reference ∧
    (fixedFrequency 0x45E5B000#32).fClamp = one ∧ inUnit one = true ∧
    deriveFreqHz (fixedFrequency 0x45E5B000#32) one = 0x45E5B000#32 ∧
    units 0x472C4400#32 = 6 * units 0x45E5B000#32 ∧ 2 * units 0x45E5B000#32 ≤ units 0x472C4400#32 ∧
    deriveFreqHz (fixedFrequency 0x46AC4400#32) one = 0x46AC4400#32 ∧
    units 0x472C4400#32 ≤ 6 * units 0x46AC4400#32 ∧ 2 * units 0x46AC4400#32 = units 0x472C4400#32 := by decide +kernel

/-- The default configuration, and one with F_MIN = 2^-24 beside the greatest finite SAMPLE_RATE. -/
theorem test_witness_FrequencyCoefficientIsPositiveAboveTwiceMaximum :
    Config.default.valid = true ∧ Config.default.coef = .reference ∧
    2 * units Config.default.fMax < units Config.default.sampleRate ∧
    units Config.default.sampleRate < 2 ^ 152 * units Config.default.fMin ∧ inUnit 0x3F000000#32 = true ∧
    ({ Config.default with sampleRate := 0x7F7FFFFF#32, fMin := 0x33800000#32 } : Config).valid = true ∧
    units 0x7F7FFFFF#32 < 2 ^ 152 * units 0x33800000#32 ∧ 2 * units Config.default.fMax < units 0x7F7FFFFF#32 := by
  decide +kernel

theorem test_witness_FrequencyCoefficientRisesWithFrequency :
    Config.default.valid = true ∧ Config.default.expmap = .reference ∧ Config.default.coef = .reference ∧
    2 * units Config.default.fMax < units Config.default.sampleRate ∧ inUnit 0x3F000000#32 = true ∧ inUnit one = true ∧
    fle 0x3F000000#32 one = true := by decide +kernel

/-- For the four operations of R13: the least subnormal and the largest finite value. -/
theorem test_witness_arithmetic : isFinite 0x00000001#32 = true ∧ isFinite 0x7F7FFFFF#32 = true ∧
    valueOf 0x00000001#32 ≠ 0 := by decide +kernel

/-- Exact zeros: 1.0 + -1.0, -0.0 + -0.0, 1.0 - 1.0, -0.0 - +0.0. -/
theorem test_witness_AdditionAndSubtractionRoundOnce :
    valueOf one + valueOf 0xBF800000#32 = 0 ∧ valueOf minusZero + valueOf minusZero = 0 ∧ valueOf one - valueOf one = 0 ∧
    valueOf minusZero - valueOf plusZero = 0 ∧ isFinite minusZero = true ∧ isFinite 0xBF800000#32 = true := by decide +kernel

/-- Every clause has its operands: a NaN, infinities of both signs, a zero of each sign, a non-zero value. -/
theorem test_witness_ArithmeticOnInfinitiesAndNaNs :
    isNaN 0x7F800001#32 = true ∧ isInf plusInf = true ∧ isInf minusInf = true ∧ fsign plusInf ≠ fsign minusInf ∧
    isFinite one = true ∧ valueOf one ≠ 0 ∧ isFinite minusZero = true ∧ valueOf minusZero = 0 := by decide +kernel

theorem test_witness_IllegalWordIsNoOp :
    ({ liveState with inbox := [0x0000000000000105#64, 0x6#64] } : State).inbox = 0x0000000000000105#64 :: [0x6#64] ∧
    rsvField 0x0000000000000105#64 ≠ 0#24 ∧
    ¬ (1 ≤ (opField 0x0000000000000000#64).toNat ∧ (opField 0x0000000000000000#64).toNat ≤ 5) ∧
    ¬ (1 ≤ (opField 0x0000000000000006#64).toNat ∧ (opField 0x0000000000000006#64).toNat ≤ 5) := by decide

theorem test_witness_ResetIgnoresData : (1#24 : BitVec 24) ≠ 0#24 ∧ (0x06#8 : BitVec 8) ≤ 0x06#8 ∧
    (0x06#8 : BitVec 8) ≤ 0xFF#8 := by decide

theorem test_witness_PseudoCommandsExpand : natLiteral ['3'] = some 3 ∧ natLiteral ['0'] = some 0 := by decide

theorem test_witness_StepRunsDecodedCommand :
    ({ liveState with inbox := [0x0000000000000005#64] } : State).inbox = 0x0000000000000005#64 :: [] ∧
    decode 0x0000000000000005#64 = .ok (.reset 0#32) := by decide

theorem test_witness_WaitingKeepsState : ({ liveState with partialWord := [0x01#8] } : State).inbox = [] := rfl

theorem test_witness_StreamEffectIsComposition :
    ({ liveState with inbox := [0x5#64, 0x1#64, 0x6#64] } : State).inbox = ([0x5#64, 0x1#64] : List Cmd) ++ [0x6#64] ∧
    ([0x5#64, 0x1#64] : List Cmd) = [0x5#64] ++ [0x1#64] := by decide

theorem test_witness_OnlyProcessResponds :
    ({ liveState with inbox := [0x1#64] } : State).inbox = 0x1#64 :: [] ∧
    decode 0x1#64 = .ok (.process 0#32) ∧ decode 0x5#64 = .ok (.reset 0#32) := by decide

theorem test_witness_OnlyProcessResponds_next : (∃ t, step { liveState with inbox := [0x1#64] } = .next t) ∧
    ∃ t, step { liveState with inbox := [0x5#64] } = .next t := ⟨⟨_, rfl⟩, ⟨_, rfl⟩⟩

theorem test_witness_OnlyProcessResponds_others : ¬ ∃ x, decode 0x5#64 = .ok (.process x) := by
  rintro ⟨x, h⟩
  have : decode 0x5#64 = .ok (.reset 0#32) := by decide
  rw [this] at h
  injection h with h
  injection h

theorem test_witness_BytesOfAWordDeliverIt : liveState.partialWord = [] ∧
    ({ liveState with partialWord := [1#8, 2#8, 3#8, 4#8] } : State).partialWord.length + [5#8, 6#8, 7#8].length < 8 ∧
    decode 0x5#64 = .ok (.reset 0#32) := by decide

theorem test_witness_InstancesAreIndependent_next : ([State.reset, liveState] : List State)[1]? = some liveState ∧
    step liveState = .next liveState := ⟨rfl, rfl⟩

theorem test_witness_InstancesAreIndependent : (0 : Nat) ≠ 1 ∧
    ([State.reset, liveState] : List State)[1]? = ([liveState, liveState] : List State)[1]? := ⟨by decide, rfl⟩

theorem test_witness_BootSequenceWritesParameters : liveState.inbox = [] ∧ isNaN 0x3F000000#32 = false ∧
    isNaN 0xBF800000#32 = false ∧ isNaN plusInf = false := by decide

theorem test_witness_NoteOnClearsIntegrators : liveState.inbox = [] ∧
    (VoiceEvent.noteOn = .noteOn ∨ VoiceEvent.noteOn = .forceStop) ∧
    (VoiceEvent.forceStop = .noteOn ∨ VoiceEvent.forceStop = .forceStop) := by decide

end Sys2Proof.Tests
end

section
/-! SUPPORT. The four operations on finite operands (R13): each packs a sign and the rounded magnitude of the exact result, and so
is `round32` of it. Settles O31, O32 and O33. -/

namespace Sys2Proof.Machine

theorem valueOf_eq_signedUnits (a : F32) : (valueOf a : ℝ) = (signedUnits a : ℝ) / 2 ^ 149 := by simp [valueOf]

theorem abs_valueOf_eq_units (a : F32) : |(valueOf a : ℝ)| = (units a : ℝ) / 2 ^ 149 := by
  rw [eq_div_iff (by positivity), units, ← abs_valueOf, abs_mul, abs_of_pos (by positivity : (0 : ℝ) < 2 ^ 149), mul_comm]

theorem units_eq_zero_iff (a : F32) : units a = 0 ↔ fmag a = 0 := by
  have h0 : unitsOfMag 0 = 0 := rfl
  refine ⟨fun h => ?_, fun h => by rw [units, h, h0]⟩
  by_contra hc
  have := unitsOfMag_lt (Nat.pos_of_ne_zero hc)
  rw [units] at h
  omega

/-- The words of value zero are the two zeros. -/
theorem valueOf_eq_zero_iff (a : F32) : valueOf a = 0 ↔ fmag a = 0 := by
  rw [← units_eq_zero_iff, valueOf, div_eq_zero_iff, or_iff_left (by norm_num), Int.cast_eq_zero, signedUnits]
  split <;> omega

theorem fsign_of_valueOf_neg {a : F32} (h : (valueOf a : ℝ) < 0) : fsign a = true := by
  by_contra hs
  rw [valueOf_of_pos (by simpa using hs)] at h
  exact absurd h (not_lt.2 (by positivity))

theorem fsign_of_valueOf_pos {a : F32} (h : 0 < (valueOf a : ℝ)) : fsign a = false := by
  have hn : (valueOf (fneg a) : ℝ) < 0 := by rw [valueOf_fneg]; push_cast; linarith
  simpa using fsign_of_valueOf_neg hn

/-- A negative product, and so a negative quotient, is one of operands of different signs. -/
theorem signs_ne_of_mul_neg {a b : F32} (h : (valueOf a : ℝ) * valueOf b < 0) : (fsign a != fsign b) = true := by
  rcases mul_neg_iff.1 h with ⟨ha, hb⟩ | ⟨ha, hb⟩
  · simp [fsign_of_valueOf_pos ha, fsign_of_valueOf_neg hb]
  · simp [fsign_of_valueOf_neg ha, fsign_of_valueOf_pos hb]

/-- A positive product, and so a positive quotient, is one of operands of the same sign. -/
theorem signs_eq_of_mul_pos {a b : F32} (h : 0 < (valueOf a : ℝ) * valueOf b) : (fsign a != fsign b) = false := by
  rcases mul_pos_iff.1 h with ⟨ha, hb⟩ | ⟨ha, hb⟩
  · simp [fsign_of_valueOf_pos ha, fsign_of_valueOf_pos hb]
  · simp [fsign_of_valueOf_neg ha, fsign_of_valueOf_neg hb]

@[simp] theorem fadd_ieee (a b : F32) : fadd .ieee a b = add32 a b := rfl
@[simp] theorem fsub_ieee (a b : F32) : fsub .ieee a b = add32 a (fneg b) := rfl
@[simp] theorem fmul_ieee (a b : F32) : fmul .ieee a b = mul32 a b := rfl
@[simp] theorem fdiv_ieee (a b : F32) : fdiv .ieee a b = div32 a b := rfl

theorem pack_zero (s : Bool) : pack s 0 = if s then minusZero else plusZero := by cases s <;> rfl

/-- The sign of a sum of finite terms: that of the exact sum, and of a zero sum negative only for two negative terms (R13). -/
def sumSign (a b : F32) : Bool :=
  if signedUnits a + signedUnits b = 0 then fsign a && fsign b else decide (signedUnits a + signedUnits b < 0)

/-- A sum of finite terms is its exact value's sign and rounded magnitude, a zero sum among them. -/
theorem add32_of_finite {a b : F32} (ha : isFinite a = true) (hb : isFinite b = true) :
    add32 a b = pack (sumSign a b) (roundMag (signedUnits a + signedUnits b).natAbs 1) := by
  simp only [add32, sumSign, not_isNaN_of_isFinite ha, not_isNaN_of_isFinite hb, not_isInf_of_isFinite ha,
    not_isInf_of_isFinite hb, Bool.or_self, Bool.false_eq_true, if_false]
  split
  · rename_i h
    rw [h, show roundMag (0 : Int).natAbs 1 = 0 by decide, pack_zero]
  · rfl

theorem mul32_of_finite {a b : F32} (ha : isFinite a = true) (hb : isFinite b = true) :
    mul32 a b = pack (fsign a != fsign b) (roundMag (units a * units b) (2 ^ 149)) := by
  simp only [mul32, not_isNaN_of_isFinite ha, not_isNaN_of_isFinite hb, not_isInf_of_isFinite ha,
    not_isInf_of_isFinite hb, Bool.or_self, Bool.false_eq_true, if_false]

theorem div32_of_finite {a b : F32} (ha : isFinite a = true) (hb : isFinite b = true) (h0 : fmag b ≠ 0) :
    div32 a b = pack (fsign a != fsign b) (roundMag (units a * 2 ^ 149) (units b)) := by
  simp only [div32, not_isNaN_of_isFinite ha, not_isNaN_of_isFinite hb, not_isInf_of_isFinite ha,
    not_isInf_of_isFinite hb, Bool.or_self, Bool.false_eq_true, if_false, h0]

/-- A sum of finite terms is the exact sum rounded once (R13). -/
theorem roundsTo_add32 {a b : F32} (ha : isFinite a = true) (hb : isFinite b = true) :
    RoundsTo ((valueOf a : ℝ) + valueOf b) (add32 a b) := by
  have hx : (valueOf a : ℝ) + valueOf b = ((signedUnits a + signedUnits b : ℤ) : ℝ) / 2 ^ 149 := by
    rw [valueOf_eq_signedUnits, valueOf_eq_signedUnits, ← add_div, Int.cast_add]
  have hpow : (0 : ℝ) < 2 ^ 149 := by positivity
  rw [add32_of_finite ha hb, hx]
  refine roundsTo_pack Nat.one_pos ?_ (fun h => ?_) (fun h => ?_)
  · rw [abs_div, abs_of_pos hpow, Nat.cast_natAbs, Int.cast_abs, Nat.cast_one, div_one]
  · have hneg : signedUnits a + signedUnits b < 0 := by
      rw [div_lt_iff₀ hpow, zero_mul] at h
      exact_mod_cast h
    simp [sumSign, hneg, hneg.ne]
  · have hpos : 0 < signedUnits a + signedUnits b := by exact_mod_cast (div_pos_iff_of_pos_right hpow).1 h
    simp [sumSign, hpos.not_gt, hpos.ne']

/-- A zero sum of finite terms is -0.0 for two terms of negative sign and else +0.0 (R113). -/
theorem add32_of_sum_zero {a b : F32} (ha : isFinite a = true) (hb : isFinite b = true) (h : valueOf a + valueOf b = 0) :
    add32 a b = if fsign a && fsign b then minusZero else plusZero := by
  have hsum : signedUnits a + signedUnits b = 0 := by
    rw [valueOf, valueOf, ← add_div, div_eq_zero_iff, or_iff_left (by norm_num)] at h
    exact_mod_cast h
  rw [add32_of_finite ha hb, sumSign, if_pos hsum, hsum, ← pack_zero]
  rfl

/-- A product of finite factors is the exact product rounded once (R13). -/
theorem roundsTo_mul32 {a b : F32} (ha : isFinite a = true) (hb : isFinite b = true) :
    RoundsTo ((valueOf a : ℝ) * valueOf b) (mul32 a b) := by
  rw [mul32_of_finite ha hb]
  refine roundsTo_pack (by positivity) ?_ signs_ne_of_mul_neg signs_eq_of_mul_pos
  rw [abs_mul, abs_valueOf_eq_units, abs_valueOf_eq_units]
  rw [Nat.cast_mul, Nat.cast_pow, Nat.cast_ofNat]
  field_simp

/-- A quotient of finite operands, the divisor not zero, is the exact quotient rounded once (R13). -/
theorem roundsTo_div32 {a b : F32} (ha : isFinite a = true) (hb : isFinite b = true) (h0 : fmag b ≠ 0) :
    RoundsTo ((valueOf a : ℝ) / valueOf b) (div32 a b) := by
  have hu : 0 < units b := Nat.pos_of_ne_zero fun h => h0 ((units_eq_zero_iff b).1 h)
  rw [div32_of_finite ha hb h0]
  refine roundsTo_pack hu ?_ (fun h => signs_ne_of_mul_neg (mul_neg_iff.2 (div_neg_iff.1 h)))
    (fun h => signs_eq_of_mul_pos (mul_pos_iff.2 (div_pos_iff.1 h)))
  rw [abs_div, abs_valueOf_eq_units, abs_valueOf_eq_units]
  rw [Nat.cast_mul, Nat.cast_pow, Nat.cast_ofNat]
  field_simp

end Sys2Proof.Machine

namespace Sys2Proof
open Machine

/-- Settles O31: a difference is the sum with the negated second term, and a sum packs its rounded exact value. -/
theorem additionAndSubtractionRoundOnce : Obligations.AdditionAndSubtractionRoundOnce := by
  intro a b ha hb
  have hb' : isFinite (fneg b) = true := by rwa [isFinite_fneg]
  have hsub := roundsTo_add32 ha hb'
  rw [valueOf_fneg, Rat.cast_neg, ← sub_eq_add_neg] at hsub
  refine ⟨roundsTo_add32 ha hb, hsub, add32_of_sum_zero ha hb, fun h => ?_⟩
  rw [← fsign_fneg]
  exact add32_of_sum_zero ha hb' (by rwa [valueOf_fneg, ← sub_eq_add_neg])

/-- Settles O32: the operation packs the product of the signs and the rounded product of the magnitudes. -/
theorem multiplicationRoundsOnce : Obligations.MultiplicationRoundsOnce := by
  intro a b ha hb
  refine ⟨roundsTo_mul32 ha hb, ?_⟩
  rw [fmul_ieee, mul32_of_finite ha hb, fsign_pack _ (roundMag_lt _ _)]

/-- Settles O33: the operation packs the product of the signs and the rounded quotient of the magnitudes. -/
theorem divisionRoundsOnce : Obligations.DivisionRoundsOnce := by
  intro a b ha hb h0
  rw [Ne, valueOf_eq_zero_iff] at h0
  refine ⟨roundsTo_div32 ha hb h0, ?_⟩
  rw [fdiv_ieee, div32_of_finite ha hb h0, fsign_pack _ (roundMag_lt _ _)]

end Sys2Proof
end

section
/-! SUPPORT. The four operations on infinities and NaNs (R13), and their flushing under FTZ_DAZ (R16). Settles O34 and O35. -/

namespace Sys2Proof.Machine

theorem pack_infinity (s : Bool) : pack s 0x7F800000 = if s then minusInf else plusInf := by cases s <;> rfl

/-- An infinity is the one of its sign. -/
theorem eq_of_isInf {a : F32} (h : isInf a = true) : a = if fsign a then minusInf else plusInf := by
  rw [← pack_infinity, ← (isInf_iff a).1 h, pack_sign_mag]

theorem not_isNaN_of_isInf {a : F32} (h : isInf a = true) : isNaN a = false := by
  rw [isInf_iff] at h
  simp [isNaN, h]

theorem fmag_ne_zero_of_isInf {a : F32} (h : isInf a = true) : fmag a ≠ 0 := by
  rw [isInf_iff] at h
  omega

@[simp] theorem isNaN_fneg (a : F32) : isNaN (fneg a) = isNaN a := by simp [isNaN]

@[simp] theorem isInf_fneg (a : F32) : isInf (fneg a) = isInf a := by simp [isInf]

/-- Each operation with a NaN operand is a NaN. -/
theorem operations_of_isNaN {a b : F32} (h : isNaN a = true ∨ isNaN b = true) :
    add32 a b = quietNaN ∧ mul32 a b = quietNaN ∧ div32 a b = quietNaN := by
  rw [← Bool.or_eq_true] at h
  exact ⟨if_pos h, if_pos h, if_pos h⟩

/-- An infinity plus a finite value, or an infinity of the same sign, is that infinity. -/
theorem add32_of_isInf_left {a b : F32} (ha : isInf a = true) (hb : isFinite b = true ∨ isInf b = true ∧ fsign a = fsign b) :
    add32 a b = a := by
  rcases hb with hb | ⟨hb, hs⟩
  · simp [add32, ha, not_isNaN_of_isInf ha, not_isNaN_of_isFinite hb, not_isInf_of_isFinite hb]
  · simp [add32, ha, not_isNaN_of_isInf ha, not_isNaN_of_isInf hb, hs]

theorem add32_of_isInf_right {a b : F32} (ha : isFinite a = true) (hb : isInf b = true) : add32 a b = b := by
  simp [add32, hb, not_isNaN_of_isFinite ha, not_isNaN_of_isInf hb, not_isInf_of_isFinite ha]

/-- The sum of infinities of opposite signs is a NaN. -/
theorem add32_of_opposite_infinities {a b : F32} (ha : isInf a = true) (hb : isInf b = true) (hs : fsign a ≠ fsign b) :
    add32 a b = quietNaN := by
  simp [add32, ha, hb, hs]

/-- A product with an infinite factor and no NaN: an infinity, or a NaN if the other factor is a zero. -/
theorem mul32_of_isInf {a b : F32} (ha : isNaN a = false) (hb : isNaN b = false) (h : isInf a = true ∨ isInf b = true) :
    mul32 a b = if fmag a = 0 ∨ fmag b = 0 then quietNaN else if fsign a != fsign b then minusInf else plusInf := by
  rw [← pack_infinity]
  simp [mul32, ha, hb, h]

theorem div32_of_isInf_left {a b : F32} (ha : isInf a = true) (hb : isFinite b = true) :
    div32 a b = if fsign a != fsign b then minusInf else plusInf := by
  rw [← pack_infinity]
  simp [div32, ha, not_isNaN_of_isInf ha, not_isNaN_of_isFinite hb, not_isInf_of_isFinite hb]

theorem div32_of_isInf_right {a b : F32} (ha : isFinite a = true) (hb : isInf b = true) :
    div32 a b = if fsign a != fsign b then minusZero else plusZero := by
  rw [← pack_zero]
  simp [div32, hb, not_isNaN_of_isFinite ha, not_isNaN_of_isInf hb, not_isInf_of_isFinite ha]

theorem div32_of_infinities {a b : F32} (ha : isInf a = true) (hb : isInf b = true) : div32 a b = quietNaN := by
  simp [div32, ha, hb]

/-- A finite value divided by a zero: an infinity, or a NaN if the value is a zero too. -/
theorem div32_by_zero {a b : F32} (ha : isFinite a = true) (hb : fmag b = 0) :
    div32 a b = if fmag a = 0 then quietNaN else if fsign a != fsign b then minusInf else plusInf := by
  have hbf : isFinite b = true := by rw [isFinite_iff]; omega
  rw [← pack_infinity]
  simp [div32, hb, not_isNaN_of_isFinite ha, not_isNaN_of_isFinite hbf, not_isInf_of_isFinite ha, not_isInf_of_isFinite hbf]

/-- Under FTZ_DAZ a subnormal is read as the zero of its sign, every other word as itself (R16). -/
theorem flushSubnormal_ftzDaz (c : F32) :
    flushSubnormal .ftzDaz c = if isSubnormal c then (if fsign c then minusZero else plusZero) else c := by
  rw [← pack_zero]
  rfl

end Sys2Proof.Machine

namespace Sys2Proof
open Machine

/-- Settles O34: the classes of operands one by one, subtraction as addition of the negated second operand. -/
theorem arithmeticOnInfinitiesAndNaNs : Obligations.ArithmeticOnInfinitiesAndNaNs := by
  intro a b
  simp only [fadd_ieee, fsub_ieee, fmul_ieee, fdiv_ieee, ne_eq, valueOf_eq_zero_iff]
  refine ⟨fun h => ?nan, fun ha hb => ?infFinite, fun ha hb => ?finiteInf, fun ha hb => ?infInf, fun ha _ hb => ?byZero⟩
  case nan =>
    obtain ⟨hadd, hmul, hdiv⟩ := operations_of_isNaN h
    obtain ⟨hsub, -⟩ := operations_of_isNaN (a := a) (b := fneg b) (by rwa [isNaN_fneg])
    simp [hadd, hsub, hmul, hdiv]
  case infFinite =>
    have hmul := mul32_of_isInf (not_isNaN_of_isInf ha) (not_isNaN_of_isFinite hb) (.inl ha)
    have h0 := fmag_ne_zero_of_isInf ha
    exact ⟨add32_of_isInf_left ha (.inl hb), add32_of_isInf_left ha (.inl (by rwa [isFinite_fneg])),
      div32_of_isInf_left ha hb, fun h => by simp [hmul, h0, h], fun h => by simp [hmul, h]⟩
  case finiteInf =>
    have hmul := mul32_of_isInf (not_isNaN_of_isFinite ha) (not_isNaN_of_isInf hb) (.inr hb)
    have h0 := fmag_ne_zero_of_isInf hb
    have hb' : isInf (fneg b) = true := by rwa [isInf_fneg]
    have hsub := eq_of_isInf hb'
    rw [fsign_fneg] at hsub
    refine ⟨add32_of_isInf_right ha hb, ?_, div32_of_isInf_right ha hb, fun h => by simp [hmul, h0, h],
      fun h => by simp [hmul, h]⟩
    rw [add32_of_isInf_right ha hb', hsub]
    cases fsign b <;> rfl
  case infInf =>
    have hb' : isInf (fneg b) = true := by rwa [isInf_fneg]
    refine ⟨?_, by simp [div32_of_infinities ha hb], fun hs => ⟨add32_of_isInf_left ha (.inr ⟨hb, hs⟩), ?_⟩,
      fun hs => ⟨by simp [add32_of_opposite_infinities ha hb hs], add32_of_isInf_left ha (.inr ⟨hb', ?_⟩)⟩⟩
    · simp [mul32_of_isInf (not_isNaN_of_isInf ha) (not_isNaN_of_isInf hb) (.inl ha), fmag_ne_zero_of_isInf ha,
        fmag_ne_zero_of_isInf hb]
    · simp [add32_of_opposite_infinities ha hb' (by simp [hs])]
    · rw [fsign_fneg]
      exact Bool.eq_not_of_ne hs
  case byZero =>
    rw [div32_by_zero ha hb]
    exact ⟨fun h => by simp [h], fun h => by simp [h]⟩

/-- Settles O35: the words the statement reads and answers are the flushed ones of `underMode`. -/
theorem ftzDazFlushesOperandsAndResults : Obligations.FtzDazFlushesOperandsAndResults := by
  intro a b
  simp only [← flushSubnormal_ftzDaz]
  exact ⟨rfl, rfl, rfl, rfl, isSubnormal_flushSubnormal _, isSubnormal_flushSubnormal _, isSubnormal_flushSubnormal _,
    isSubnormal_flushSubnormal _⟩

end Sys2Proof
end

section
/-! SUPPORT. The two comparisons of `clampN` (R15), and the configuration of the reset state (R8). Settles O2 and O15. -/

namespace Sys2Proof.Machine

theorem not_isNaN_of_fle {a b : F32} (h : fle a b = true) : isNaN a = false ∧ isNaN b = false := by
  simp only [fle, Bool.and_eq_true, Bool.not_eq_true'] at h
  exact h.1

/-- What is at least 1.0 is above +0.0. -/
theorem not_fle_plusZero_of_one_fle {p : F32} (h : fle one p = true) : fle p plusZero = false := by
  by_contra hc
  have : fle one plusZero = true := fle_trans h (by simpa using hc)
  exact absurd this (by decide)

@[simp] theorem reset_cfg : State.reset.cfg = Config.default := rfl

end Sys2Proof.Machine

namespace Sys2Proof
open Machine

/-- Settles O2: the reset state holds the default configuration, whose fields are these patterns. -/
theorem resetConfigurationHoldsDefaults : Obligations.ResetConfigurationHoldsDefaults := by
  unfold Obligations.ResetConfigurationHoldsDefaults
  rw [reset_cfg]
  decide

/-- Settles O15: the two comparisons of `clampN` exclude each other, and neither holds of a NaN. -/
theorem clampFollowsNormalizedRange : Obligations.ClampFollowsNormalizedRange := by
  intro p
  refine ⟨clampN_eq_none_iff p, fun h0 => ?_, fun (h1 : fle one p = true) => ?_,
    fun hn h0 (h1 : fle one p = false) => ?_, by decide, by decide, by decide⟩
  · rw [clampN_of_not_isNaN (not_isNaN_of_fle h0).1, if_pos h0]
    rfl
  · rw [clampN_of_not_isNaN (not_isNaN_of_fle h1).2, not_fle_plusZero_of_one_fle h1, h1]
    rfl
  · rw [clampN_of_not_isNaN hn, h0, h1]
    rfl

end Sys2Proof
end

section
/-! SUPPORT. What each command leaves unchanged, what it reads, and the invariant under every operation and every step
(R23, R32 to R34, R107, R121). Settles O3, O4, O5, O8 and O9. -/

namespace Sys2Proof.Machine

/-- What every command and the taking of a word keep, a step keeps (R55, R142, R163). -/
theorem step_preserves {P : State → Prop} (hinbox : ∀ s ws, P s → P { s with inbox := ws })
    (hexec : ∀ i s t, exec i s = .next t → P s → P t) {s t : State} (h : step s = .next t) (hs : P s) : P t := by
  rcases step_cases s with ⟨-, hstep⟩ | ⟨w, rest, i, -, -, hstep⟩ | ⟨w, rest, e, -, -, hstep⟩ <;> rw [hstep] at h
  · cases h
    exact hs
  · exact hexec i _ t h (hinbox s rest hs)
  · cases h
    exact hinbox s rest hs

/-- What the ignored write and each write of a value in [+0.0, 1.0] make true, a setter does (R120 to R122). -/
theorem setParameter_induction {P : State → Prop} {write : F32 → State → State} {s : State} (hs : P s)
    (hwrite : ∀ pn, inUnit pn = true → P (write pn s)) (p : F32) : P (setParameter write p s) := by
  rcases setParameter_cases write p s with ⟨-, h⟩ | ⟨pn, -, hpn, h⟩ <;> rw [h]
  · exact hs
  · exact hwrite pn hpn

/-- A setter whose write does not touch HIGH does not read it either. -/
theorem setParameter_withHigh {write : F32 → State → State} {s : State} {high : F32}
    (hwrite : ∀ pn, write pn { s with high := high } = { write pn s with high := high }) (p : F32) :
    setParameter write p { s with high := high } = { setParameter write p s with high := high } := by
  unfold setParameter
  cases clampN p with
  | none => rfl
  | some pn => exact hwrite pn

/-- PROCESS replaces HIGH before anything could read it (R23, R102). -/
theorem execProcess_withHigh (x : F32) (s : State) (high : F32) : execProcess x { s with high := high } = execProcess x s := rfl

/-- From a state with another HIGH every command answers the same state, up to HIGH (R23). -/
theorem exec_withHigh {i : Instr} {s t : State} (h : exec i s = .next t) (high : F32) :
    ∃ high', exec i { s with high := high } = .next { t with high := high' } := by
  cases i with
  | process x => exact ⟨t.high, (execProcess_withHigh x s high).trans h⟩
  | setfreq p | setq p | setshape p =>
    cases h
    exact ⟨high, congrArg _ (setParameter_withHigh (fun _ => rfl) p)⟩
  | reset data => exact ⟨t.high, h⟩

/-- The power-on parameters of a valid configuration are in [+0.0, 1.0] (R27). -/
theorem inUnit_resets_of_valid {c : Config} (h : c.valid = true) :
    inUnit c.freqReset = true ∧ inUnit c.qReset = true ∧ inUnit c.shapeReset = true := by
  simp only [Config.valid, Bool.and_eq_true] at h
  obtain ⟨⟨⟨-, hfreq⟩, hq⟩, hshape⟩ := h
  exact ⟨hfreq, hq, hshape⟩

/-- Construction computes the derived registers from the power-on parameters (R39, R180). -/
theorem inv_construct {c : Config} (h : c.valid = true) : Inv (State.construct c) := by
  obtain ⟨hfreq, hq, hshape⟩ := inUnit_resets_of_valid h
  exact ⟨h, isFinite_plusZero, isFinite_plusZero, isFinite_plusZero, hfreq, hq, hshape, rfl, rfl, rfl, rfl, Nat.succ_pos 7⟩

/-- The invariant does not look at the delivered words. -/
theorem inv_withInbox (s : State) (ws : List Cmd) (h : Inv s) : Inv { s with inbox := ws } := h

/-- The invariant does not look at the responses. -/
theorem inv_respond {s : State} (h : Inv s) (out : F32) : Inv (respond out s) := h

/-- Finite values may be stored in the integrators (R21 to R23). -/
theorem inv_writeSignals {s : State} (h : Inv s) {v : Signals}
    (hv : isFinite v.low = true ∧ isFinite v.band = true ∧ isFinite v.high = true) : Inv (writeSignals v s) := by
  obtain ⟨hcfg, -, -, -, hrest⟩ := h
  obtain ⟨hlow, hband, hhigh⟩ := hv
  exact ⟨hcfg, hlow, hband, hhigh, hrest⟩

/-- A write of FREQ_N computes FREQ_HZ and F anew (R24, R32). -/
theorem inv_writeFreq {s : State} (h : Inv s) {pn : F32} (hpn : inUnit pn = true) : Inv (writeFreq pn s) := by
  obtain ⟨hcfg, hlow, hband, hhigh, -, hq, hshape, -, -, hrest⟩ := h
  exact ⟨hcfg, hlow, hband, hhigh, hpn, hq, hshape, rfl, rfl, hrest⟩

/-- A write of Q_N computes Q and DAMP anew (R25, R32). -/
theorem inv_writeQ {s : State} (h : Inv s) {pn : F32} (hpn : inUnit pn = true) : Inv (writeQ pn s) := by
  obtain ⟨hcfg, hlow, hband, hhigh, hfreq, -, hshape, hfreqHz, hf, -, -, hpartial⟩ := h
  exact ⟨hcfg, hlow, hband, hhigh, hfreq, hpn, hshape, hfreqHz, hf, rfl, rfl, hpartial⟩

/-- No register is derived from SHAPE (R26, R32). -/
theorem inv_writeShape {s : State} (h : Inv s) {pn : F32} (hpn : inUnit pn = true) : Inv (writeShape pn s) := by
  obtain ⟨hcfg, hlow, hband, hhigh, hfreq, hq, -, hrest⟩ := h
  exact ⟨hcfg, hlow, hband, hhigh, hfreq, hq, hpn, hrest⟩

/-- Every command keeps the invariant: PROCESS stores sanitised values (R107), a setter writes clamped ones (R121). -/
theorem inv_exec (i : Instr) (s t : State) (h : exec i s = .next t) (hs : Inv s) : Inv t := by
  cases i <;> cases h
  case process x => exact inv_respond (inv_writeSignals hs (isFinite_sanitize _ _)) _
  case setfreq p => exact setParameter_induction hs (fun _ => inv_writeFreq hs) p
  case setq p => exact setParameter_induction hs (fun _ => inv_writeQ hs) p
  case setshape p => exact setParameter_induction hs (fun _ => inv_writeShape hs) p
  case reset data => exact inv_writeSignals hs ⟨isFinite_plusZero, isFinite_plusZero, isFinite_plusZero⟩

end Sys2Proof.Machine

namespace Sys2Proof
open Machine

/-- Settles O4: every command keeps the invariant, and so does taking its word from the stream. -/
theorem stepKeepsInvariant : Obligations.StepKeepsInvariant := fun _ _ hs h => step_preserves inv_withInbox inv_exec h hs

/-- Settles O8: PROCESS and RESET write the integrators, a setter writes nothing or its own column. -/
theorem commandsWriteOnlyTheirRegisters : Obligations.CommandsWriteOnlyTheirRegisters := by
  intro i s t h
  cases i <;> cases h
  case process x => exact ⟨rfl, List.prefix_append _ _⟩
  case setfreq p =>
    exact setParameter_induction (P := fun t => t = { s with freqN := t.freqN, freqHz := t.freqHz, f := t.f }) rfl
      (fun _ _ => rfl) p
  case setq p =>
    exact setParameter_induction (P := fun t => t = { s with qN := t.qN, q := t.q, damp := t.damp }) rfl (fun _ _ => rfl) p
  case setshape p => exact setParameter_induction (P := fun t => t = { s with shape := t.shape }) rfl (fun _ _ => rfl) p
  case reset data => rfl

/-- The configuration is in no command's column of the access table (R33, R34). -/
theorem exec_cfg {i : Instr} {s t : State} (h : exec i s = .next t) : t.cfg = s.cfg := by
  have hframe := commandsWriteOnlyTheirRegisters i s t h
  cases i with
  | process x =>
    obtain ⟨hframe, -⟩ := hframe
    exact (congrArg State.cfg hframe :)
  | setfreq p | setq p | setshape p | reset data => exact (congrArg State.cfg hframe :)

/-- Settles O3: the power-on parameters of a valid configuration are in range, and the default configuration is valid. -/
theorem constructionMeetsInvariant : Obligations.ConstructionMeetsInvariant :=
  ⟨fun _ => inv_construct, inv_construct (by decide)⟩

/-- Settles O5: a step's state is that of its command, which keeps the configuration. -/
theorem stepKeepsConfiguration : Obligations.StepKeepsConfiguration := fun s _ h =>
  step_preserves (P := fun u => u.cfg = s.cfg) (fun _ _ hu => hu) (fun _ _ _ h hu => (exec_cfg h).trans hu) h rfl

/-- Settles O9: PROCESS overwrites HIGH unread, and no other command reads it. -/
theorem highIsNeverRead : Obligations.HighIsNeverRead := by
  refine fun s high => ⟨fun x => execProcess_withHigh x s high, fun i t h => ?_⟩
  obtain ⟨high', h'⟩ := exec_withHigh h high
  exact ⟨_, h', rfl⟩

end Sys2Proof
end

section
/-! SUPPORT. Every EXPMAP has the properties R124 names and every COEF is finite (R125), so the derived registers of a valid
configuration are in the ranges of R28 to R31. Settles O22. -/

namespace Sys2Proof.Machine

/-- Words of sign 0 that are no NaN are ordered as their magnitudes. -/
theorem fle_of_fmag_le {a b : F32} (ha : fsign a = false) (hb : fsign b = false) (hab : fmag a ≤ fmag b)
    (hmax : fmag b ≤ 0x7F800000) : fle a b = true := by
  have hna : isNaN a = false := by rw [isNaN, decide_eq_false_iff_not]; omega
  have hnb : isNaN b = false := by rw [isNaN, decide_eq_false_iff_not]; omega
  simpa [fle, orderKey, ha, hb, hna, hnb] using hab

theorem fle_refl {a : F32} (h : isNaN a = false) : fle a a = true := by simp [fle, h]

theorem not_isNaN_of_posFinite {a : F32} (h : posFinite a = true) : isNaN a = false := by
  obtain ⟨-, -, hmag⟩ := (posFinite_iff a).1 h
  exact not_isNaN_of_isFinite ((isFinite_iff a).2 hmag)

/-- The order on [+0.0, 1.0] is that of the values in units. -/
theorem units_le_of_fle {p r : F32} (hp : inUnit p = true) (hr : inUnit r = true) (h : fle p r = true) : units p ≤ units r := by
  obtain ⟨sp, -⟩ := (inUnit_iff p).1 hp
  obtain ⟨sr, -⟩ := (inUnit_iff r).1 hr
  rw [fle_of_nonneg sp sr (isFinite_of_inUnit hp) (isFinite_of_inUnit hr), decide_eq_true_eq] at h
  exact unitsOfMag_le h

/-- +0.0 and 1.0 are the least and the greatest value in [+0.0, 1.0]. -/
theorem fle_of_inUnit {p : F32} (h : inUnit p = true) : fle plusZero p = true ∧ fle p one = true := by
  obtain ⟨hs, hmag⟩ := (inUnit_iff p).1 h
  exact ⟨fle_of_fmag_le rfl hs (Nat.zero_le _) (by omega), fle_of_fmag_le hs rfl hmag (by decide)⟩

/-- A value between two positive finite ones is one. -/
theorem posFinite_of_fle {lo a hi : F32} (hlo : posFinite lo = true) (hhi : posFinite hi = true) (h1 : fle lo a = true)
    (h2 : fle a hi = true) : posFinite a = true := by
  rw [posFinite_iff] at *
  obtain ⟨slo, lopos, -⟩ := hlo
  obtain ⟨shi, -, hifin⟩ := hhi
  simp only [fle, orderKey, slo, shi, Bool.and_eq_true, decide_eq_true_eq] at h1 h2
  obtain ⟨-, h1⟩ := h1
  obtain ⟨-, h2⟩ := h2
  cases hs : fsign a <;> simp [hs] at h1 h2 ⊢ <;> omega

/-- EXPMAP's domain asks of the exponent only that it is in [+0.0, 1.0] (R124). -/
theorem expmapDomain_of_inUnit {lo hi p r : F32} (h : expmapDomain lo hi p = true) (hr : inUnit r = true) :
    expmapDomain lo hi r = true := by
  simp only [expmapDomain, Bool.and_eq_true] at h ⊢
  obtain ⟨hbounds, -⟩ := h
  exact ⟨hbounds, hr⟩

/-- The bounds of EXPMAP are ordered (R124). -/
theorem fle_of_expmapDomain {lo hi p : F32} (h : expmapDomain lo hi p = true) : fle lo hi = true := by
  simp only [expmapDomain, Bool.and_eq_true] at h
  obtain ⟨⟨-, hle⟩, -⟩ := h
  exact hle

/-- The reference EXPMAP has the properties R124 names: rounding is monotone. -/
theorem expmapLaw_expmapRef {lo hi p : F32} (h : expmapDomain lo hi p = true) : ExpmapLaw lo hi (expmapRef lo hi) := by
  refine ⟨rfl, rfl, fun r r' hr hr' hle => ?_⟩
  obtain ⟨s, m⟩ := roundsToMag_expmapRef (expmapDomain_of_inUnit h hr)
  obtain ⟨s', m'⟩ := roundsToMag_expmapRef (expmapDomain_of_inUnit h hr')
  exact fle_of_fmag_le s s' (m.mono m' (expmapExact_mono (expmapDomain_of_inUnit h hr) (units_le_of_fle hr hr' hle))) m'.1

/-- The function that is `hi` at 1.0 and `lo` below has the properties R124 names. -/
theorem expmapLaw_stepFunction {lo hi : F32} (h : fle lo hi = true) : ExpmapLaw lo hi fun p => if p = one then hi else lo := by
  obtain ⟨hlo, hhi⟩ := not_isNaN_of_fle h
  refine ⟨if_neg (by decide), if_pos rfl, fun p r hp hr hle => ?_⟩
  by_cases h1 : p = one
  · have hr1 : r = one := by
      subst h1
      obtain ⟨hs, hmag⟩ := (inUnit_iff r).1 hr
      rw [fle_of_nonneg rfl hs rfl (isFinite_of_inUnit hr), decide_eq_true_eq] at hle
      exact ext_sign_mag hs (le_antisymm hmag hle)
    simpa [h1, hr1] using fle_refl hhi
  · by_cases hr1 : r = one
    · simpa [h1, hr1] using h
    · simpa [h1, hr1] using fle_refl hlo

/-- Every configured EXPMAP has the properties R124 names. -/
theorem expmapLaw_expmapConfigured (k : Nat) {lo hi : F32} (h : fle lo hi = true) : ExpmapLaw lo hi (expmapConfigured k lo hi) := by
  by_cases hfree : ExpmapLaw lo hi (Config.freeExpmap k lo hi)
  · rwa [show expmapConfigured k lo hi = Config.freeExpmap k lo hi from funext fun p => by rw [expmapConfigured, if_pos hfree]]
  · rw [show expmapConfigured k lo hi = fun p => if p = one then hi else lo from
      funext fun p => by rw [expmapConfigured, if_neg hfree]]
    exact expmapLaw_stepFunction h

/-- At bounds of its domain, whichever EXPMAP is chosen is a function with the properties R124 names. -/
theorem expmap_of_domain (fn : NumericFn) {lo hi p : F32} (h : expmapDomain lo hi p = true) :
    ∃ g, ExpmapLaw lo hi g ∧ ∀ r, inUnit r = true → expmap fn lo hi r = g r := by
  cases fn with
  | reference =>
    exact ⟨expmapRef lo hi, expmapLaw_expmapRef h, fun r hr => if_pos (expmapDomain_of_inUnit h hr)⟩
  | configured k =>
    exact ⟨expmapConfigured k lo hi, expmapLaw_expmapConfigured k (fle_of_expmapDomain h),
      fun r hr => if_pos (expmapDomain_of_inUnit h hr)⟩

/-- The result of every EXPMAP is in [lo, hi] (R124). -/
theorem fle_expmap (fn : NumericFn) {lo hi p : F32} (h : expmapDomain lo hi p = true) :
    fle lo (expmap fn lo hi p) = true ∧ fle (expmap fn lo hi p) hi = true := by
  have hp : inUnit p = true := by
    simp only [expmapDomain, Bool.and_eq_true] at h
    obtain ⟨-, hp⟩ := h
    exact hp
  obtain ⟨g, ⟨g0, g1, mono⟩, hg⟩ := expmap_of_domain fn h
  obtain ⟨h0, h1⟩ := fle_of_inUnit hp
  rw [hg p hp]
  exact ⟨g0 ▸ mono _ _ inUnit_plusZero hp h0, g1 ▸ mono _ _ hp inUnit_one h1⟩

/-- The magnitude of every COEF's result is at most that of 2.0 (R125). -/
theorem fmag_coef_le (fn : NumericFn) {fhz sr : F32} (h : coefDomain fhz sr = true) : fmag (coef fn fhz sr) ≤ 0x40000000 := by
  obtain ⟨-, -, hsr, -⟩ := units_of_coefDomain h
  cases fn with
  | reference =>
    have hle := sineMag_le hsr (quarterPart_le fhz sr hsr)
    rw [show coef .reference fhz sr = coefRef fhz sr from if_pos h, coefRef]
    split
    · decide
    · rwa [fmag_pack _ (by omega)]
  | configured k =>
    rw [show coef (.configured k) fhz sr = coefConfigured k fhz sr from if_pos h, coefConfigured]
    split
    · assumption
    · decide

theorem coefDomain_of_posFinite {fhz sr : F32} (hf : posFinite fhz = true) (hs : posFinite sr = true) :
    coefDomain fhz sr = true := by
  obtain ⟨hsign, -, hmag⟩ := (posFinite_iff fhz).1 hf
  simp [coefDomain, (isFinite_iff fhz).2 hmag, hs, fle_of_fmag_le (a := plusZero) rfl hsign (Nat.zero_le _) hmag.le]

/-- `min` does not exceed its second operand, even where the first is a NaN (R13). -/
theorem fle_fmin_right {a b : F32} (hb : isNaN b = false) : fle (fmin a b) b = true := by
  unfold fmin
  split
  · assumption
  · exact fle_refl hb

/-- `max` is at least its second operand, even where the first is a NaN (R13). -/
theorem fle_fmax_right {a b : F32} (hb : isNaN b = false) : fle b (fmax a b) = true := by
  unfold fmax
  split
  · assumption
  · exact fle_refl hb

theorem isFinite_fmin {a b : F32} (ha : isFinite a = true) (hb : isFinite b = true) : isFinite (fmin a b) = true := by
  unfold fmin
  split <;> assumption

/-- FREQ_HZ of a valid configuration is in [F_MIN, F_MAX] (R28). -/
theorem fle_deriveFreqHz {c : Config} (hc : c.valid = true) {pn : F32} (hpn : inUnit pn = true) :
    fle c.fMin (deriveFreqHz c pn) = true ∧ fle (deriveFreqHz c pn) c.fMax = true := by
  obtain ⟨hdomain, -⟩ := domain_of_valid hc hpn
  rw [deriveFreqHz]
  exact fle_expmap _ hdomain

/-- Q of a valid configuration is in [Q_MIN, Q_MAX] (R30). -/
theorem fle_deriveQ {c : Config} (hc : c.valid = true) {pn : F32} (hpn : inUnit pn = true) :
    fle c.qMin (deriveQ c pn) = true ∧ fle (deriveQ c pn) c.qMax = true := by
  obtain ⟨-, hdomain, -⟩ := domain_of_valid hc hpn
  rw [deriveQ]
  exact fle_expmap _ hdomain

/-- FREQ_HZ of a valid configuration is a frequency R125 defines COEF on. -/
theorem coefDomain_deriveFreqHz {c : Config} (hc : c.valid = true) {pn : F32} (hpn : inUnit pn = true) :
    coefDomain (deriveFreqHz c pn) c.sampleRate = true := by
  obtain ⟨hdomain, -, hsr, -⟩ := domain_of_valid hc hpn
  obtain ⟨hlo, hhi⟩ := fle_deriveFreqHz hc hpn
  simp only [expmapDomain, Bool.and_eq_true] at hdomain
  obtain ⟨⟨⟨hmin, hmax⟩, -⟩, -⟩ := hdomain
  exact coefDomain_of_posFinite (posFinite_of_fle hmin hmax hlo hhi) hsr

/-- F of a valid configuration is finite and at most F_CLAMP (R29). -/
theorem deriveF_range {c : Config} (hc : c.valid = true) {pn : F32} (hpn : inUnit pn = true) :
    isFinite (deriveF c pn) = true ∧ fle (deriveF c pn) c.fClamp = true := by
  obtain ⟨-, -, -, hclamp, -⟩ := domain_of_valid hc hpn
  obtain ⟨-, -, hmag⟩ := (posFinite_iff _).1 hclamp
  have hcoef := fmag_coef_le c.coef (coefDomain_deriveFreqHz hc hpn)
  rw [deriveF]
  exact ⟨isFinite_fmin ((isFinite_iff _).2 (by omega)) ((isFinite_iff _).2 hmag),
    fle_fmin_right (not_isNaN_of_posFinite hclamp)⟩

/-- DAMP of a valid configuration is at least DAMP_FLOOR (R31). -/
theorem fle_deriveDamp {c : Config} (hc : c.valid = true) {pn : F32} (hpn : inUnit pn = true) :
    fle c.dampFloor (deriveDamp c pn) = true := by
  obtain ⟨-, -, -, -, hfloor⟩ := domain_of_valid hc hpn
  rw [deriveDamp]
  exact fle_fmax_right (not_isNaN_of_posFinite hfloor)

end Sys2Proof.Machine

namespace Sys2Proof
open Machine

/-- Settles O22: under the invariant the registers are the functions of R28 to R31, each of which has its range. -/
theorem derivedRegistersStayInRange : Obligations.DerivedRegistersStayInRange := by
  rintro s ⟨hcfg, -, -, -, hfreq, hq, -, hfreqHz, hf, hQ, hdamp, -⟩
  rw [hfreqHz, hf, hQ, hdamp]
  obtain ⟨freqLo, freqHi⟩ := fle_deriveFreqHz hcfg hfreq
  obtain ⟨qLo, qHi⟩ := fle_deriveQ hcfg hq
  obtain ⟨fFinite, fClamped⟩ := deriveF_range hcfg hfreq
  exact ⟨freqLo, freqHi, qLo, qHi, fFinite, fClamped, fle_deriveDamp hcfg hq⟩

end Sys2Proof
end

section
/-! SUPPORT. The command stream and the byte transport: the encoder's words decode, a run over delivered words is the composition
of their effects, and bytes are collected into words (R51, R52, R55). Settles O44, O47 and O49. -/

namespace Sys2Proof.Machine

/-- The fields of every encoded command (R71 to R73). -/
theorem encodedFields (i : Instr) : Laws.EncodedFields.Statement i :=
  match i with
  | .process x => Laws.EncodedFields.process x
  | .setfreq p => Laws.EncodedFields.setfreq p
  | .setq p => Laws.EncodedFields.setq p
  | .setshape p => Laws.EncodedFields.setshape p
  | .reset data => Laws.EncodedFields.reset data

/-- The decoder reads back what the encoder writes (R71, R74). -/
@[simp] theorem decode_encode (i : Instr) : decode (encode i) = .ok i := by
  obtain ⟨hrsv, hop, hdata⟩ := encodedFields i
  rw [decode, if_pos hrsv, hop, hdata]
  cases i <;> rfl

/-- The delivery of a whole word as the next one (log entry 3). -/
theorem withFetchWord_toNat (s : State) (w : Cmd) : s.withFetchWord 64 w.toNat = { s with inbox := w :: s.inbox } := by
  rw [State.withFetchWord, Nat.mod_eq_of_lt w.isLt, BitVec.ofNat_toNat, BitVec.setWidth_eq]

/-- No run of effects looks at the delivered words. -/
theorem foldl_commandEffect_withInbox (us ws : List Cmd) (s : State) :
    us.foldl commandEffect { s with inbox := ws } = { us.foldl commandEffect s with inbox := ws } :=
  List.foldl_hom (fun t : State => { t with inbox := ws }) fun t w => commandEffect_withInbox t w ws

/-- As many steps as there are words apply the words' effects in issue order (R55). -/
theorem run_eq_foldl_commandEffect (ws rest : List Cmd) {s : State} (h : s.inbox = ws ++ rest) :
    core.run ws.length s = .next { ws.foldl commandEffect s with inbox := rest } := by
  induction ws generalizing s with
  | nil =>
    obtain rfl : s.inbox = rest := h
    rfl
  | cons w ws ih =>
    calc core.run (ws.length + 1) s
        = core.run ws.length { commandEffect s w with inbox := ws ++ rest } := run_succ core _ (step_eq_commandEffect h)
      _ = .next { ws.foldl commandEffect { commandEffect s w with inbox := ws ++ rest } with inbox := rest } := ih rfl
      _ = .next { ws.foldl commandEffect (commandEffect s w) with inbox := rest } := by
        rw [foldl_commandEffect_withInbox]

/-- No command takes a response back (R34, R77). -/
theorem exec_responses {i : Instr} {s t : State} (h : exec i s = .next t) : s.responses <+: t.responses := by
  have hframe := commandsWriteOnlyTheirRegisters i s t h
  cases i with
  | process x =>
    obtain ⟨-, hresponses⟩ := hframe
    exact hresponses
  | setfreq p | setq p | setshape p | reset data =>
    have hresponses := (congrArg State.responses hframe :)
    rw [hresponses]

/-- No word takes a response back, an illegal one neither (R142). -/
theorem commandEffect_responses (s : State) (w : Cmd) : s.responses <+: (commandEffect s w).responses := by
  cases hd : decode w with
  | error e => rw [commandEffect_of_illegal s hd]
  | ok i =>
    obtain ⟨t, ht⟩ := exec_next i s
    rw [commandEffect_of_decode hd ht]
    exact exec_responses ht

/-- Later words only append responses (R55, R77). -/
theorem foldl_commandEffect_responses (ws : List Cmd) (s : State) :
    s.responses <+: (ws.foldl commandEffect s).responses := by
  induction ws generalizing s with
  | nil => exact List.prefix_rfl
  | cons w ws ih => exact (commandEffect_responses s w).trans (ih (commandEffect s w))

/-- A byte that does not complete a word is kept (R52). -/
theorem receiveByte_of_short (b : Byte) {s : State} (h : s.partialWord.length < 7) :
    receiveByte b s = { s with partialWord := s.partialWord ++ [b] } := by
  unfold receiveByte
  split
  case h_1 hs => simp [hs] at h
  case h_2 => rfl

/-- The eighth byte of a word completes the command, and nothing is unfinished then (R51, R52). -/
theorem receiveByte_of_seven {b0 b1 b2 b3 b4 b5 b6 : Byte} (b : Byte) {s : State}
    (h : s.partialWord = [b0, b1, b2, b3, b4, b5, b6]) :
    receiveByte b s = issueCommand (cmdOfBytes b0 b1 b2 b3 b4 b5 b6 b) { s with partialWord := [] } := by
  simp only [receiveByte, h]

/-- Bytes that do not complete a word are kept in order and issue nothing (R52). -/
theorem receiveBytes_of_short (bs : List Byte) {s : State} (h : s.partialWord.length + bs.length < 8) :
    receiveBytes bs s = { s with partialWord := s.partialWord ++ bs } := by
  induction bs generalizing s with
  | nil => rw [List.append_nil]; rfl
  | cons b bs ih =>
    rw [List.length_cons] at h
    rw [receiveBytes, receiveByte_of_short b (by omega), ih (by simp only [List.length_append, List.length_singleton]; omega),
      List.append_assoc, List.singleton_append]

/-- Bytes delivered in two parts, the first part first (R51). -/
theorem receiveBytes_append (bs cs : List Byte) (s : State) :
    receiveBytes (bs ++ cs) s = receiveBytes cs (receiveBytes bs s) := by
  induction bs generalizing s with
  | nil => rfl
  | cons b bs ih => exact ih (receiveByte b s)

/-- The eight bytes of a word issue it: seven are collected, and the last completes it (R51, R52). -/
theorem receiveBytes_cmdBytes (w : Cmd) {s : State} (h : s.partialWord = []) :
    receiveBytes (cmdBytes w) s = issueCommand w s := by
  have hseven : receiveBytes ((cmdBytes w).take 7) s = { s with partialWord := (cmdBytes w).take 7 } := by
    rw [receiveBytes_of_short _ (by simp [h, cmdBytes]), h, List.nil_append]
  calc receiveBytes (cmdBytes w) s
      = receiveByte (w.extractLsb' 56 8) (receiveBytes ((cmdBytes w).take 7) s) :=
        receiveBytes_append ((cmdBytes w).take 7) [w.extractLsb' 56 8] s
    _ = issueCommand w { s with partialWord := [] } := by rw [hseven, receiveByte_of_seven _ rfl, cmdOfBytes_bytes]
    _ = issueCommand w s := by rw [← h]

/-- A word's command is read from its bytes, and the bytes behind them are left (R51). -/
theorem decodeBytes_cmdBytes {w : Cmd} {i : Instr} (rest : List Byte) (h : decode w = .ok i) :
    decodeBytes (cmdBytes w ++ rest) = .ok (i, rest) := by
  simp only [cmdBytes, List.cons_append, List.nil_append, decodeBytes, cmdOfBytes_bytes, h]

end Sys2Proof.Machine

namespace Sys2Proof
open Machine

/-- Settles O44: the oldest word is taken and executed, and an encoded command decodes to itself. -/
theorem stepRunsDecodedCommand : Obligations.StepRunsDecodedCommand := by
  refine ⟨fun _ _ _ _ => step_of_decode, fun s i => ?_⟩
  rw [withFetchWord_toNat]
  exact step_of_decode rfl (decode_encode i)

/-- Settles O47: by induction on the words, since no effect looks at the words behind its own. -/
theorem streamEffectIsComposition : Obligations.StreamEffectIsComposition := by
  refine fun ws rest s h => ⟨?_, ?_⟩
  · rw [run_eq_foldl_commandEffect ws rest h, foldl_commandEffect_withInbox ws [] s]
  · rintro us vs rfl
    rw [List.foldl_append]
    exact foldl_commandEffect_responses vs _

/-- Settles O49: fewer than eight bytes are collected, and the eighth puts the word together again. -/
theorem bytesOfAWordDeliverIt : Obligations.BytesOfAWordDeliverIt := by
  refine ⟨fun w k hk => ?_, fun r k hk => ?_, fun w _ => receiveBytes_cmdBytes w, fun bs _ => receiveBytes_of_short bs,
    fun _ _ rest => decodeBytes_cmdBytes rest⟩
  · interval_cases k <;> rfl
  · interval_cases k <;> rfl

end Sys2Proof
end

section
/-! SUPPORT. Several instances: each step is a function applied at one place of the system (R60, R162). Settles O50. -/

namespace Sys2Proof.Machine

/-- The state a step answers; a step answers no fault and no refusal (`step_eq_next`). -/
def nextState (s : State) : State :=
  match step s with
  | .next t => t
  | .fault _ => s
  | .refused _ => s

theorem nextState_of_step {s t : State} (h : step s = .next t) : nextState s = t := by simp only [nextState, h]

/-- Every step answers a next state (R150). -/
theorem step_eq_next (s : State) : step s = .next (nextState s) := by
  have hnext : ∃ t, step s = .next t := by
    rcases step_cases s with ⟨-, h⟩ | ⟨w, rest, i, -, -, h⟩ | ⟨w, rest, e, -, -, h⟩ <;> rw [h]
    · exact ⟨_, rfl⟩
    · exact exec_next i _
    · exact ⟨_, rfl⟩
  obtain ⟨t, h⟩ := hnext
  rw [h, nextState_of_step h]

/-- A step at place `k` of a system replaces the state there by the one its step answers, and nothing else (R60). -/
theorem stepInstance_eq_modify (k : Nat) (sys : List State) : stepInstance k sys = sys.modify k nextState := by
  rw [List.modify_eq_set_getElem?, stepInstance]
  cases sys[k]? with
  | none => rfl
  | some s => simp only [step_eq_next]; rfl

/-- What stands at place `j` after a step at place `k` (R60). -/
theorem getElem?_stepInstance (k : Nat) (sys : List State) (j : Nat) :
    (stepInstance k sys)[j]? = if k = j then sys[j]?.map nextState else sys[j]? := by
  rw [stepInstance_eq_modify, List.getElem?_modify]
  split <;> simp

end Sys2Proof.Machine

namespace Sys2Proof
open Machine

/-- Settles O50: a step at place `k` is a function of the state there, written back there. -/
theorem instancesAreIndependent : Obligations.InstancesAreIndependent := by
  refine ⟨fun sys k s t hs ht => ?_, fun sys j k hjk => ⟨?_, fun sys' h => ?_, ?_⟩⟩
  · rw [getElem?_stepInstance, if_pos rfl, hs, Option.map_some, nextState_of_step ht]
  · rw [getElem?_stepInstance, if_neg hjk.symm]
  · rw [getElem?_stepInstance, getElem?_stepInstance, h]
  · simpa only [stepInstance_eq_modify] using List.modify_modify_ne nextState nextState sys hjk.symm

end Sys2Proof
end

section
/-! SUPPORT. Decoder and encoder are inverse, legality by match and mask, which words answer a response, and what lines of
assembly stand for (R71 to R75, R77 to R80). Settles O39 to O43 and O48. -/

namespace Sys2Proof

/-- Every word is put together from three fields in one way only (R71). -/
theorem eq_cmdWord_iff (w : Cmd) (data : F32) (rsv : BitVec 24) (op : BitVec 8) :
    w = cmdWord data rsv op ↔ dataField w = data ∧ rsvField w = rsv ∧ opField w = op := by
  constructor
  · rintro rfl
    obtain ⟨hrsv, hop, hdata⟩ := Laws.EncodedFields.fields_of_cmdWord data rsv op
    exact ⟨hdata, hrsv, hop⟩
  · rintro ⟨rfl, rfl, rfl⟩
    exact (cmdWord_of_fields w).symm

/-- What an operation code and an operand decode to, a command of that code and operand (R73). -/
theorem decodeOp_eq_ok {op : BitVec 8} {data : F32} {i : Instr} (h : decodeOp op data = .ok i) :
    opcodeOf i = op ∧ operandOf i = data := by
  unfold decodeOp at h
  split_ifs at h with h1 h2 h3 h4 h5 <;> cases h
  · exact ⟨h1.symm, rfl⟩
  · exact ⟨h2.symm, rfl⟩
  · exact ⟨h3.symm, rfl⟩
  · exact ⟨h4.symm, rfl⟩
  · exact ⟨h5.symm, rfl⟩

/-- A word decodes to a command exactly if it is the command's encoding (R71 to R74). -/
theorem decode_eq_ok_iff {w : Cmd} {i : Instr} : decode w = .ok i ↔ encode i = w := by
  constructor
  · intro h
    unfold decode at h
    split_ifs at h with hrsv
    obtain ⟨hop, hdata⟩ := decodeOp_eq_ok h
    exact ((eq_cmdWord_iff w _ _ _).2 ⟨hdata.symm, hrsv, hop.symm⟩).symm
  · rintro rfl
    exact Machine.decode_encode i

/-- A word decodes to a command exactly if its fields are the command's (R71 to R74). -/
theorem decode_eq_ok_iff_fields {w : Cmd} {i : Instr} :
    decode w = .ok i ↔ dataField w = operandOf i ∧ rsvField w = 0#24 ∧ opField w = opcodeOf i := by
  rw [decode_eq_ok_iff, eq_comm, encode, eq_cmdWord_iff]

/-- A mask acts on each field by itself (R71). -/
theorem cmdWord_and_cmdWord (data data' : F32) (rsv rsv' : BitVec 24) (op op' : BitVec 8) :
    cmdWord data rsv op &&& cmdWord data' rsv' op' = cmdWord (data &&& data') (rsv &&& rsv') (op &&& op') :=
  BitVec.and_append.trans (congrArg _ BitVec.and_append)

/-- The mask of R74 clears DATA and keeps RSV and OP. -/
theorem and_mask_eq_cmdWord (w : Cmd) : w &&& 0x00000000FFFFFFFF#64 = cmdWord 0#32 (rsvField w) (opField w) := by
  have hmask : 0x00000000FFFFFFFF#64 = cmdWord 0#32 (BitVec.allOnes 24) (BitVec.allOnes 8) := by decide
  calc w &&& 0x00000000FFFFFFFF#64
      = cmdWord (dataField w) (rsvField w) (opField w) &&& cmdWord 0#32 (BitVec.allOnes 24) (BitVec.allOnes 8) := by
        rw [cmdWord_of_fields, hmask]
    _ = cmdWord 0#32 (rsvField w) (opField w) := by
        rw [cmdWord_and_cmdWord, BitVec.and_zero, BitVec.and_allOnes, BitVec.and_allOnes]

/-- A word is the command with its DATA as the operand exactly if its masked value is the command's code (R74). -/
theorem and_mask_eq_iff_decode (op : BitVec 8) {w code : Cmd} {i : Instr} (hop : opcodeOf i = op)
    (hdata : operandOf i = dataField w) (hcode : cmdWord 0#32 0#24 op = code) :
    w &&& 0x00000000FFFFFFFF#64 = code ↔ decode w = .ok i := by
  obtain ⟨hrsv', hop', hdata'⟩ := Laws.EncodedFields.fields_of_cmdWord 0#32 (rsvField w) (opField w)
  rw [← hcode, and_mask_eq_cmdWord, eq_cmdWord_iff, hdata', hrsv', hop', decode_eq_ok_iff_fields, hdata, hop]
  simp only [true_and]

/-- The operation codes of the five commands are 0x01 to 0x05 (R73). -/
theorem opcodeOf_range (i : Instr) : 1 ≤ (opcodeOf i).toNat ∧ (opcodeOf i).toNat ≤ 5 := by
  cases i <;> simp [opcodeOf]

/-- Legality as a condition on the fields RSV and OP (R74). -/
theorem legalWord_iff (w : Cmd) :
    legalWord w = true ↔ rsvField w = 0#24 ∧ 1 ≤ (opField w).toNat ∧ (opField w).toNat ≤ 5 := by
  obtain ⟨hrsv, hop, -⟩ := toNat_fields w
  rw [BitVec.toNat_eq, hrsv, hop]
  simp only [legalWord, Bool.and_eq_true, decide_eq_true_eq, BitVec.toNat_ofNat, Nat.zero_mod, and_assoc]

/-- The legal words are those that decode (R74). -/
theorem exists_decode_iff_legalWord (w : Cmd) : (∃ i, decode w = .ok i) ↔ legalWord w = true := by
  rw [legalWord_iff]
  constructor
  · rintro ⟨i, h⟩
    obtain ⟨-, hrsv, hop⟩ := decode_eq_ok_iff_fields.1 h
    exact ⟨hrsv, hop ▸ opcodeOf_range i⟩
  · rintro ⟨hrsv, hlow, hhigh⟩
    rw [decode, if_pos hrsv]
    have hop := BitVec.ofNat_toNat 8 (opField w)
    rw [BitVec.setWidth_eq] at hop
    rw [← hop]
    interval_cases (opField w).toNat <;> exact ⟨_, rfl⟩

end Sys2Proof

namespace Sys2Proof.Machine

/-- Only PROCESS touches the responses (R34, R77). -/
theorem exec_responses_of_ne_process {i : Instr} {s t : State} (hi : ∀ x, i ≠ .process x) (h : exec i s = .next t) :
    t.responses = s.responses := by
  have hframe := commandsWriteOnlyTheirRegisters i s t h
  cases i with
  | process x => exact absurd rfl (hi x)
  | setfreq p | setq p | setshape p | reset data => exact (congrArg State.responses hframe :)

/-- A line of a mnemonic and a binary32 literal stands for one command word (R78). -/
theorem assembleLine_of_operand {line name operand : List Char} {x : F32} {i : Instr} {w : Cmd}
    (hline : asmWords (dropComment line) [] = [name, operand]) (hx : f32Literal operand = some x)
    (hi : operandCommand (name.map Char.toLower) x = some i) (hw : encode i = w) : assembleLine line = some [w] := by
  have hword : name.map Char.toLower ≠ ['.', 'w', 'o', 'r', 'd', '6', '4'] := by
    intro h
    rw [h] at hi
    cases hi
  have hsilence : name.map Char.toLower ≠ ['s', 'i', 'l', 'e', 'n', 'c', 'e'] := by
    intro h
    rw [h] at hi
    cases hi
  simp only [assembleLine, hline, assembleWords, assembleOperand, if_neg hword, if_neg hsilence, hx, hi, hw]

/-- A line of a mnemonic alone stands for one command word (R78, R79). -/
theorem assembleLine_of_bare {line name : List Char} {i : Instr} {w : Cmd}
    (hline : asmWords (dropComment line) [] = [name]) (hi : bareCommand (name.map Char.toLower) = some i)
    (hw : encode i = w) : assembleLine line = some [w] := by
  simp only [assembleLine, hline, assembleWords, hi, hw]

/-- `.word64` and a literal of 16 hexadecimal digits stand for the word itself (R78). -/
theorem assembleLine_of_word64 {line digits : List Char} {v : Nat} {w : Cmd}
    (hline : asmWords (dropComment line) [] = [['.', 'w', 'o', 'r', 'd', '6', '4'], digits])
    (hv : hexLiteral 16 digits = some v) (hw : BitVec.ofNat 64 v = w) : assembleLine line = some [w] := by
  have hname : ['.', 'w', 'o', 'r', 'd', '6', '4'].map Char.toLower = ['.', 'w', 'o', 'r', 'd', '6', '4'] := by decide
  simp only [assembleLine, hline, assembleWords, assembleOperand, hname, if_true, hv, hw]

/-- The literals of the tables of R79 and R80, rounded once (R13, R78). -/
theorem f32Literal_zero : f32Literal ['0', '.', '0'] = some plusZero := by decide +kernel

theorem f32Literal_quarter : f32Literal ['0', '.', '2', '5'] = some 0x3E800000#32 := by decide +kernel

theorem f32Literal_half : f32Literal ['0', '.', '5'] = some half := by decide +kernel

theorem f32Literal_minusHalf : f32Literal ['-', '0', '.', '5'] = some 0xBF000000#32 := by decide +kernel

theorem f32Literal_one : f32Literal ['1', '.', '0'] = some one := by decide +kernel

/-- `SILENCE N` stands for N times the word of `PROCESS 0.0` (R79). -/
theorem assembleWords_silence {digits : List Char} {n : Nat} (h : natLiteral digits = some n) :
    assembleWords [['S', 'I', 'L', 'E', 'N', 'C', 'E'], digits] = some (List.replicate n (encode (.process plusZero))) := by
  have hname : ['S', 'I', 'L', 'E', 'N', 'C', 'E'].map Char.toLower = ['s', 'i', 'l', 'e', 'n', 'c', 'e'] := by decide
  have hword : ['s', 'i', 'l', 'e', 'n', 'c', 'e'] ≠ ['.', 'w', 'o', 'r', 'd', '6', '4'] := by decide
  simp only [assembleWords, assembleOperand, hname, if_neg hword, if_true, h]

end Sys2Proof.Machine

namespace Sys2Proof
open Machine

/-- Settles O39: a word is put together from its fields in one way only, and each code names one command. -/
theorem decodeAndEncodeAreInverse : Obligations.DecodeAndEncodeAreInverse := fun _ _ => decode_eq_ok_iff

/-- Settles O40: the mask keeps RSV and OP, which alone say whether a word is a command and which. -/
theorem decodeIsTotalByMatchAndMask : Obligations.DecodeIsTotalByMatchAndMask := fun w =>
  ⟨and_mask_eq_iff_decode 0x01#8 rfl rfl rfl, and_mask_eq_iff_decode 0x02#8 rfl rfl rfl,
    and_mask_eq_iff_decode 0x03#8 rfl rfl rfl, and_mask_eq_iff_decode 0x04#8 rfl rfl rfl,
    and_mask_eq_iff_decode 0x05#8 rfl rfl rfl, exists_decode_iff_legalWord w, legalWord_iff w⟩

/-- Settles O48: a PROCESS appends its contained output, every other command keeps the responses, and an illegal word too. -/
theorem onlyProcessResponds : Obligations.OnlyProcessResponds := by
  refine fun s t w rest hs h => ⟨fun x hd => ?_, fun hne => ?_⟩
  · rw [step_of_decode hs hd] at h
    cases h
    exact ⟨rfl, isFinite_contain _⟩
  · cases hd : decode w with
    | ok i =>
      rw [step_of_decode hs hd] at h
      exact (exec_responses_of_ne_process (fun x hx => hne ⟨x, hx ▸ hd⟩) h :)
    | error e =>
      rw [step_of_illegal hs hd] at h
      cases h
      rfl

/-- Settles O41: RESET does not read its DATA, and a word that decodes has RSV zero and a command's operation code. -/
theorem resetIgnoresData : Obligations.ResetIgnoresData := by
  refine ⟨fun data => decode_encode (.reset data), fun _ _ _ => rfl, fun data rsv op hrsv i h => ?_,
    fun data rsv op hop i h => ?_⟩
  · obtain ⟨-, hzero, -⟩ := decode_eq_ok_iff_fields.1 h
    obtain ⟨hfield, -, -⟩ := Laws.EncodedFields.fields_of_cmdWord data rsv op
    exact hrsv (hfield.symm.trans hzero)
  · obtain ⟨-, -, hcode⟩ := decode_eq_ok_iff_fields.1 h
    obtain ⟨-, hfield, -⟩ := Laws.EncodedFields.fields_of_cmdWord data rsv op
    obtain rfl : op = opcodeOf i := hfield.symm.trans hcode
    obtain ⟨hlow, hhigh⟩ := opcodeOf_range i
    rcases hop with hzero | hreserved
    · simp [hzero] at hlow
    · have : 6 ≤ (opcodeOf i).toNat := hreserved
      omega

/-- Settles O42: each line's words are read, its literal converted and the command encoded; a word decodes to the command it
encodes. -/
theorem encodingExamplesOfTheSpec : Obligations.EncodingExamplesOfTheSpec :=
  ⟨assembleLine_of_operand rfl f32Literal_one rfl rfl, assembleLine_of_operand rfl f32Literal_zero rfl rfl,
    assembleLine_of_operand rfl f32Literal_minusHalf rfl rfl, assembleLine_of_operand rfl rfl rfl rfl,
    assembleLine_of_operand rfl f32Literal_one rfl rfl, assembleLine_of_operand rfl f32Literal_zero rfl rfl,
    assembleLine_of_operand rfl f32Literal_one rfl rfl, assembleLine_of_operand rfl f32Literal_half rfl rfl,
    assembleLine_of_operand rfl f32Literal_quarter rfl rfl, assembleLine_of_bare rfl rfl rfl,
    assembleLine_of_word64 rfl rfl rfl, assembleLine_of_word64 rfl rfl rfl,
    decode_eq_ok_iff.2 rfl, decode_eq_ok_iff.2 rfl, decode_eq_ok_iff.2 rfl, decode_eq_ok_iff.2 rfl, decode_eq_ok_iff.2 rfl,
    decode_eq_ok_iff.2 rfl, decode_eq_ok_iff.2 rfl, decode_eq_ok_iff.2 rfl, decode_eq_ok_iff.2 rfl, decode_eq_ok_iff.2 rfl,
    rfl, rfl⟩

/-- Settles O43: both lines of a row stand for the same encoded command. -/
theorem pseudoCommandsExpand : Obligations.PseudoCommandsExpand :=
  ⟨(assembleLine_of_bare rfl rfl rfl).trans (assembleLine_of_operand rfl f32Literal_zero rfl rfl).symm,
    (assembleLine_of_bare rfl rfl rfl).trans (assembleLine_of_operand rfl f32Literal_half rfl rfl).symm,
    (assembleLine_of_bare rfl rfl rfl).trans (assembleLine_of_operand rfl f32Literal_one rfl rfl).symm,
    (assembleLine_of_bare rfl rfl rfl).trans (assembleLine_of_bare rfl rfl rfl).symm,
    assembleLine_of_bare rfl rfl rfl, assembleLine_of_bare rfl rfl rfl, fun _ _ h => assembleWords_silence h⟩

end Sys2Proof
end

section
/-! SUPPORT. PROCESS: the values it stores and the morph it answers (R101 to R111), non-finite inputs and the silent state
(R113), the end points of SHAPE (R109, R110) and the worked example (R115). Settles O6, O7 and O10 to O14. -/

namespace Sys2Proof.Machine

/-- PROCESS in terms of the values it stores: its answer is their contained morph (R100, R107, R111). -/
theorem exec_process_of_signals {x : F32} {s : State} {v : Signals} (h : processSignals x s = v) :
    exec (.process x) s = .next { s with
      low := v.low, band := v.band, high := v.high,
      responses := s.responses ++ [contain (morph s.cfg.denormalMode s.cfg.shapeSplit s.shape v)] } := by
  subst h
  rfl

/-- Where the three values of an update are finite, they are stored in either mode (R106). -/
theorem processSignals_of_finite {x : F32} {s : State} {v : Signals}
    (hv : svfUpdate s.cfg.denormalMode s.f s.damp s.low s.band x = v) (hlow : isFinite v.low = true)
    (hband : isFinite v.band = true) (hhigh : isFinite v.high = true) : processSignals x s = v := by
  rw [processSignals, hv, sanitize_of_finite _ hlow hband hhigh]

/-- What is non-finite, or +0.0 already, is contained to +0.0 (R105). -/
theorem contain_eq_plusZero {a : F32} (h : isFinite a = true → a = plusZero) : contain a = plusZero := by
  unfold contain
  split
  · exact h ‹_›
  · rfl

theorem contain_of_not_isFinite {a : F32} (h : isFinite a = false) : contain a = plusZero :=
  contain_eq_plusZero (by simp [h])

/-- If no finite value but +0.0 is among the three, both modes leave three times +0.0 (R106). -/
theorem sanitize_eq_zero (mode : SanitizeMode) {v : Signals} (hlow : isFinite v.low = true → v.low = plusZero)
    (hband : isFinite v.band = true → v.band = plusZero) (hhigh : isFinite v.high = true → v.high = plusZero) :
    sanitize mode v = ⟨plusZero, plusZero, plusZero⟩ := by
  cases mode with
  | allOnAny =>
    rw [sanitize_allOnAny]
    split
    · rename_i hfin
      simp only [Bool.and_eq_true] at hfin
      obtain ⟨⟨hl, hb⟩, hh⟩ := hfin
      show Signals.mk v.low v.band v.high = _
      rw [hlow hl, hband hb, hhigh hh]
    · rfl
  | perVariable => rw [sanitize, contain_eq_plusZero hlow, contain_eq_plusZero hband, contain_eq_plusZero hhigh]

/-! ## Non-finite values on their way through an update (R113) -/

/-- The operands of a finite result are finite, where a non-finite operand makes the result non-finite. -/
theorem isFinite_operands_of_result {a b c : F32} (hop : isFinite a = false ∨ isFinite b = false → isFinite c = false)
    (h : isFinite c = true) : isFinite a = true ∧ isFinite b = true := by
  by_contra hc
  rw [hop (by simpa [or_iff_not_imp_left] using hc)] at h
  cases h

theorem isFinite_of_fadd {m : DenormalMode} {a b : F32} (h : isFinite (fadd m a b) = true) :
    isFinite a = true ∧ isFinite b = true := isFinite_operands_of_result (fadd_not_finite m) h

theorem isFinite_of_fsub {m : DenormalMode} {a b : F32} (h : isFinite (fsub m a b) = true) :
    isFinite a = true ∧ isFinite b = true := isFinite_operands_of_result (fsub_not_finite m) h

theorem isFinite_of_fmul {m : DenormalMode} {a b : F32} (h : isFinite (fmul m a b) = true) :
    isFinite a = true ∧ isFinite b = true := isFinite_operands_of_result (fmul_not_finite m) h

/-- A non-finite input reaches `high1`, and `band1` by way of it (R113). -/
theorem svfUpdate_of_not_isFinite (m : DenormalMode) (f damp low band : F32) {x : F32} (h : isFinite x = false) :
    isFinite (svfUpdate m f damp low band x).band = false ∧ isFinite (svfUpdate m f damp low band x).high = false := by
  have hhigh : isFinite (highUpdate m damp (lowUpdate m f low band) band x) = false :=
    fsub_not_finite m (.inl (fsub_not_finite m (.inl h)))
  exact ⟨fadd_not_finite m (.inr (fmul_not_finite m (.inr hhigh))), hhigh⟩

/-! ## Zeros on their way through an update and a blend (R113) -/

/-- A finite value times +0.0 is a zero. -/
theorem fmag_fmul_plusZero (m : DenormalMode) {a : F32} (h : isFinite a = true) : fmag (fmul m a plusZero) = 0 := by
  rw [fmul_zero_right m plusZero a rfl h, fmag_pack _ (by norm_num)]

/-- +0.0 plus a product with +0.0 is +0.0, unless the product is a NaN. -/
theorem fadd_fmul_plusZero {m : DenormalMode} {a : F32} (h : isFinite (fadd m plusZero (fmul m a plusZero)) = true) :
    fadd m plusZero (fmul m a plusZero) = plusZero := by
  obtain ⟨-, hprod⟩ := isFinite_of_fadd h
  obtain ⟨ha, -⟩ := isFinite_of_fmul hprod
  exact fadd_zero_plus m _ (fmag_fmul_plusZero m ha)

theorem lowUpdate_zero {m : DenormalMode} {f : F32} (h : isFinite (lowUpdate m f plusZero plusZero) = true) :
    lowUpdate m f plusZero plusZero = plusZero := fadd_fmul_plusZero h

theorem highUpdate_zero {m : DenormalMode} {damp low1 : F32} (hlow : isFinite low1 = true → low1 = plusZero)
    (h : isFinite (highUpdate m damp low1 plusZero plusZero) = true) :
    highUpdate m damp low1 plusZero plusZero = plusZero := by
  obtain ⟨hdiff, hprod⟩ := isFinite_of_fsub h
  obtain ⟨-, hlow1⟩ := isFinite_of_fsub hdiff
  obtain ⟨hdamp, -⟩ := isFinite_of_fmul hprod
  rw [highUpdate, hlow hlow1, fsub_plus_zero m plusZero rfl, fsub_plus_zero m _ (fmag_fmul_plusZero m hdamp)]

theorem bandUpdate_zero {m : DenormalMode} {f high1 : F32} (hhigh : isFinite high1 = true → high1 = plusZero)
    (h : isFinite (bandUpdate m f plusZero high1) = true) : bandUpdate m f plusZero high1 = plusZero := by
  obtain ⟨-, hprod⟩ := isFinite_of_fadd h
  obtain ⟨-, hhigh1⟩ := isFinite_of_fmul hprod
  obtain rfl := hhigh hhigh1
  exact fadd_fmul_plusZero h

/-- From zeros with the input +0.0 every value is +0.0, or a NaN that a non-finite F or DAMP makes; zeros are stored (R113). -/
theorem processSignals_zero {s : State} (hlow : s.low = plusZero) (hband : s.band = plusZero) :
    processSignals plusZero s = ⟨plusZero, plusZero, plusZero⟩ := by
  rw [processSignals, hlow, hband]
  exact sanitize_eq_zero _ lowUpdate_zero (bandUpdate_zero (highUpdate_zero lowUpdate_zero)) (highUpdate_zero lowUpdate_zero)

/-- A blend of zeros is +0.0: its second product is, and 1.0 - t is finite (R109, R110). -/
theorem blend_zero (m : DenormalMode) {t : F32} (hfin : isFinite t = true) (hsign : fsign t = false)
    (hmag : fmag t ≤ 0x40000000) : blend m plusZero plusZero t = plusZero := by
  have hsecond : fmul m plusZero t = plusZero := by
    rw [fmul_zero_left m plusZero t rfl hfin, hsign]
    rfl
  rw [blend, hsecond, fadd_plus_zero]
  rw [fmul_zero_left m plusZero _ rfl (isFinite_one_sub hfin hmag), fmag_pack _ (by norm_num)]

/-- The morph of zeros is +0.0 for every SHAPE in [+0.0, 1.0] (R108 to R110). -/
theorem morph_zero (m : DenormalMode) {shape : F32} (h : inUnit shape = true) :
    morph m half shape ⟨plusZero, plusZero, plusZero⟩ = plusZero := by
  unfold morph
  split
  · obtain ⟨hfin, hsign⟩ := doubled_unit_pos (m := m) h
    exact blend_zero m hfin hsign (doubled_unit_le h)
  · rename_i hsplit
    obtain ⟨hfin, hsign, hmag⟩ := upper_blend_factor (m := m) h (by simpa using hsplit)
    exact blend_zero m hfin hsign hmag

/-- Where zeros are stored, +0.0 is answered (R111, R113). -/
theorem exec_process_of_zero_signals {x : F32} {s : State} (h : processSignals x s = ⟨plusZero, plusZero, plusZero⟩)
    (hshape : inUnit s.shape = true) (hsplit : s.cfg.shapeSplit = half) :
    exec (.process x) s = .next { s with
      low := plusZero, band := plusZero, high := plusZero, responses := s.responses ++ [plusZero] } := by
  rw [exec_process_of_signals h, hsplit, morph_zero _ hshape]
  rfl

/-! ## The blends at their end points (R109, R110) -/

/-- A value that PROCESS stores: finite, and under FTZ_DAZ not subnormal (R16, R107). -/
def Stored (m : DenormalMode) (a : F32) : Prop := isFinite a = true ∧ (m = .ftzDaz → isSubnormal a = false)

theorem stored_processSignals (x : F32) (s : State) :
    Stored s.cfg.denormalMode (processSignals x s).low ∧ Stored s.cfg.denormalMode (processSignals x s).band ∧
      Stored s.cfg.denormalMode (processSignals x s).high := by
  obtain ⟨hlow, hband, hhigh⟩ := isFinite_sanitize s.cfg.sanitizeMode (svfUpdate s.cfg.denormalMode s.f s.damp s.low s.band x)
  have hflushed := isSubnormal_processSignals x s
  rw [imp_and, imp_and] at hflushed
  obtain ⟨slow, sband, shigh⟩ := hflushed
  exact ⟨⟨hlow, slow⟩, ⟨hband, sband⟩, ⟨hhigh, shigh⟩⟩

/-- At `t = +0.0` the blend has the value of its first part. -/
theorem valueOf_contain_blend_plusZero {m : DenormalMode} {a b : F32} (ha : Stored m a) (hb : Stored m b) :
    valueOf (contain (blend m a b plusZero)) = valueOf a := by
  obtain ⟨hfin, hns⟩ := ha
  obtain ⟨hother, -⟩ := hb
  have hone : fsub m one plusZero = one := by cases m <;> decide
  obtain ⟨hvalue, -, hsum, -⟩ := fadd_zero hfin (fmag_fmul_plusZero m hother) hns
  rw [blend, hone, fmul_one hfin hns, contain_of_isFinite hsum, hvalue]

/-- At `t = 1.0` the blend has the value of its second part. -/
theorem valueOf_contain_blend_one {m : DenormalMode} {a b : F32} (ha : Stored m a) (hb : Stored m b) :
    valueOf (contain (blend m a b one)) = valueOf b := by
  obtain ⟨hfin, hns⟩ := hb
  obtain ⟨hother, -⟩ := ha
  have hone : fsub m one one = plusZero := by cases m <;> decide
  obtain ⟨-, hvalue, -, hsum⟩ := fadd_zero hfin (fmag_fmul_plusZero m hother) hns
  rw [blend, hone, fmul_one hfin hns, contain_of_isFinite hsum, hvalue]

/-- SHAPE +0.0 is the lower blend at `t = +0.0` (R109). -/
theorem morph_plusZero (m : DenormalMode) (v : Signals) : morph m half plusZero v = blend m v.low v.band plusZero := by
  have ht : fmul m plusZero two = plusZero := by cases m <;> decide
  rw [morph, if_pos (by decide), ht]

/-- SHAPE 0.5 is the upper blend at `t = +0.0` (R110). -/
theorem morph_half (m : DenormalMode) (v : Signals) : morph m half half v = blend m v.band v.high plusZero := by
  have ht : fmul m (fsub m half half) two = plusZero := by cases m <;> decide
  rw [morph, if_neg (by decide), ht]

/-- SHAPE 1.0 is the upper blend at `t = 1.0` (R110). -/
theorem morph_one (m : DenormalMode) (v : Signals) : morph m half one v = blend m v.band v.high one := by
  have ht : fmul m (fsub m one half) two = one := by cases m <;> decide
  rw [morph, if_neg (by decide), ht]

/-! ## The worked example (R115) -/

theorem svfUpdate_workedExample (m : DenormalMode) : svfUpdate m half one plusZero plusZero one = ⟨plusZero, half, one⟩ := by
  cases m <;> decide +kernel

theorem morph_workedExample (m : DenormalMode) :
    morph m half 0x3E800000#32 ⟨plusZero, half, one⟩ = 0x3E800000#32 := by
  cases m <;> decide +kernel

end Sys2Proof.Machine

namespace Sys2Proof
open Machine

/-- Settles O6: the sanitised update is stored, in each mode by that mode's test. -/
theorem processStoresSanitisedUpdate : Obligations.ProcessStoresSanitisedUpdate := by
  intro x s
  have hsanitized : processSignals x s = sanitize s.cfg.sanitizeMode _ := rfl
  refine ⟨_, exec_process_of_signals rfl, fun hmode => ?_, fun hmode => ?_, isFinite_sanitize _ _⟩ <;> rw [hmode] at hsanitized
  · rw [sanitize_allOnAny] at hsanitized
    split <;> rename_i hfin
    · rw [hsanitized.trans (if_pos hfin)]
      exact ⟨rfl, rfl, rfl⟩
    · rw [hsanitized.trans (if_neg hfin)]
      exact ⟨rfl, rfl, rfl⟩
  · rw [hsanitized]
    exact ⟨rfl, rfl, rfl⟩

/-- Settles O7: the answer is the contained morph of the values stored. -/
theorem processRespondsWithMorph : Obligations.ProcessRespondsWithMorph :=
  fun _ _ => ⟨_, rfl, rfl, isFinite_contain _⟩

/-- Settles O10: a non-finite input makes `high1` and `band1` non-finite, and `low1` does not read it. -/
theorem nonFiniteInputIsContained : Obligations.NonFiniteInputIsContained := by
  intro x s hx hshape hsplit
  obtain ⟨hband, hhigh⟩ := svfUpdate_of_not_isFinite s.cfg.denormalMode s.f s.damp s.low s.band hx
  refine ⟨fun hmode => ?_, fun hmode => ⟨isFinite_contain _, ?_⟩⟩
  · have hzero : processSignals x s = ⟨plusZero, plusZero, plusZero⟩ := by
      rw [processSignals, hmode, sanitize_allOnAny, hhigh, Bool.and_false]
      rfl
    exact exec_process_of_zero_signals hzero hshape hsplit
  · apply exec_process_of_signals (v := ⟨contain (lowUpdate s.cfg.denormalMode s.f s.low s.band), plusZero, plusZero⟩)
    rw [processSignals, hmode, sanitize, contain_of_not_isFinite hband, contain_of_not_isFinite hhigh]
    rfl

/-- Settles O11: the update does not read the mode, and sanitisation keeps finite values in either. -/
theorem sanitizeModesAgreeOnFinite : Obligations.SanitizeModesAgreeOnFinite := by
  intro x s t mode m low1 high1 hlow hhigh hband h
  rw [exec_process_of_signals (processSignals_of_finite rfl hlow hband hhigh)] at h
  cases h
  exact exec_process_of_signals (processSignals_of_finite rfl hlow hband hhigh)

/-- Settles O12: zeros are stored again, and their morph is +0.0. -/
theorem zeroInputOnZeroStateIsSilent : Obligations.ZeroInputOnZeroStateIsSilent := by
  rintro ⟨⟩ rfl rfl rfl hshape hsplit
  exact exec_process_of_zero_signals (processSignals_zero rfl rfl) hshape hsplit

/-- Settles O13: each of the three is an end point of a blend, which multiplies one part by 1.0 and the other by a zero. -/
theorem shapeEndPointsSelectPureOutputs : Obligations.ShapeEndPointsSelectPureOutputs := by
  intro x s hsplit
  obtain ⟨hlow, hband, hhigh⟩ := stored_processSignals x s
  refine ⟨_, processOutput x s, rfl, rfl, fun hs => ?_, fun hs => ?_, fun hs => ?_⟩ <;> rw [processOutput, hsplit, hs]
  · rw [morph_plusZero]
    exact valueOf_contain_blend_plusZero hlow hband
  · rw [morph_half]
    exact valueOf_contain_blend_plusZero hband hhigh
  · rw [morph_one]
    exact valueOf_contain_blend_one hband hhigh

/-- Settles O14: the three values of the update are finite, so every mode stores them. -/
theorem workedExampleOfProcess : Obligations.WorkedExampleOfProcess := by
  intro s hf hdamp hshape hsplit hlow hband hhigh
  have hv : svfUpdate s.cfg.denormalMode s.f s.damp s.low s.band one = ⟨plusZero, half, one⟩ := by
    rw [hf, hdamp, hlow, hband]
    exact svfUpdate_workedExample _
  have hout : morph s.cfg.denormalMode half s.shape ⟨plusZero, half, one⟩ = 0x3E800000#32 := by
    rw [hshape]
    exact morph_workedExample _
  have h := exec_process_of_signals (processSignals_of_finite hv rfl rfl rfl)
  rw [hsplit, hout] at h
  exact h

end Sys2Proof
end

section
/-! SUPPORT. COEF below half the sample rate: the angle is in the first quarter turn, its sine is positive, and twice the sine
does not round to zero (R125); so F is positive there (R117). Settles O29. -/

namespace Sys2Proof.Machine

/-- Below half the sample rate the angle is in the first quarter turn, and nothing is folded (R125). -/
theorem coefRef_below_half_rate {fhz sr : F32} (h0 : 0 < units fhz) (h : 2 * units fhz < units sr) :
    coefRef fhz sr = pack false (sineMag (units fhz) (units sr)) := by
  have hturn : turnPart fhz sr = units fhz := Nat.mod_eq_of_lt (by omega)
  have hquarter : quarterPart fhz sr = units fhz := by
    rw [quarterPart, hturn, Nat.mod_eq_of_lt (by omega), foldQuarter, if_neg (by omega)]
  have hsign : sineNegative fhz sr = false := by
    rw [sineNegative, hturn, decide_eq_false_iff_not]
    omega
  rw [coefRef, hquarter, hsign, if_neg h0.ne']

/-- A value above half the least subnormal does not round to zero (R13). -/
theorem RoundsToMag.pos {y : ℝ} {m : Nat} (h : RoundsToMag y m) (hy : 1 < 2 * y) : 0 < m := by
  refine Nat.pos_of_ne_zero fun h0 => ?_
  subst h0
  obtain ⟨-, -, hzero | hpast⟩ := h
  · cases hzero
  · exact hpast (.inl (by rw [show midSum 0 = 1 by decide]; exact_mod_cast hy))

/-- Twice the sine of an angle `pi * r/b` of at most a quarter turn and above 2^-152 half turns does not round to zero: the
sine is at least the chord `2 * r/b` (R125). -/
theorem sineMag_pos {r b : Nat} (hr : 2 * r ≤ b) (hb : b < 2 ^ 152 * r) : 0 < sineMag r b := by
  have hb0 : 0 < b := by omega
  have hbR : (0 : ℝ) < b := by exact_mod_cast hb0
  have hrR : 2 * (r : ℝ) ≤ b := by exact_mod_cast hr
  have hangle : Real.pi * ((r : ℝ) / b) ≤ Real.pi / 2 := by
    rw [div_eq_mul_one_div Real.pi 2]
    refine mul_le_mul_of_nonneg_left ?_ Real.pi_pos.le
    rw [div_le_iff₀ hbR]
    linarith
  have hchord : 2 * ((r : ℝ) / b) ≤ Real.sin (Real.pi * (r / b)) := by
    have h := Real.mul_le_sin (by positivity) hangle
    rwa [← mul_assoc, div_mul_cancel₀ _ Real.pi_pos.ne'] at h
  refine (roundsToMag_sineMag hb0 hr).pos ?_
  calc (1 : ℝ) < 2 ^ 152 * (r / b) := by
        rw [← mul_div_assoc, lt_div_iff₀ hbR, one_mul]
        exact_mod_cast hb
    _ = 2 * (2 ^ 150 * (2 * (r / b))) := by ring
    _ ≤ 2 * (2 ^ 150 * Real.sin (Real.pi * (r / b))) := by gcongr

/-- The reference COEF is positive below half the sample rate, for a frequency above `sr / 2^152` (R117, R125). -/
theorem posFinite_coefRef {fhz sr : F32} (h : 2 * units fhz < units sr) (hlow : units sr < 2 ^ 152 * units fhz) :
    posFinite (coefRef fhz sr) = true := by
  have hmag := sineMag_le (r := units fhz) (by omega) h.le
  rw [coefRef_below_half_rate (by omega) h, posFinite_iff, fsign_pack _ (by omega), fmag_pack _ (by omega)]
  exact ⟨rfl, sineMag_pos h.le hlow, by omega⟩

/-- The order of positive finite values is that of the values in units. -/
theorem units_le_of_fle_of_posFinite {a b : F32} (ha : posFinite a = true) (hb : posFinite b = true)
    (h : fle a b = true) : units a ≤ units b := by
  obtain ⟨sa, -, fa⟩ := (posFinite_iff a).1 ha
  obtain ⟨sb, -, fb⟩ := (posFinite_iff b).1 hb
  rw [fle_of_nonneg sa sb ((isFinite_iff a).2 fa) ((isFinite_iff b).2 fb), decide_eq_true_eq] at h
  exact unitsOfMag_le h

/-- FREQ_HZ of a valid configuration lies between F_MIN and F_MAX, in units (R28). -/
theorem units_deriveFreqHz {c : Config} (hc : c.valid = true) {pn : F32} (hpn : inUnit pn = true) :
    units c.fMin ≤ units (deriveFreqHz c pn) ∧ units (deriveFreqHz c pn) ≤ units c.fMax := by
  obtain ⟨hdomain, -⟩ := domain_of_valid hc hpn
  simp only [expmapDomain, Bool.and_eq_true] at hdomain
  obtain ⟨⟨⟨hmin, hmax⟩, -⟩, -⟩ := hdomain
  obtain ⟨hlo, hhi⟩ := fle_deriveFreqHz hc hpn
  have hfreq := posFinite_of_fle hmin hmax hlo hhi
  exact ⟨units_le_of_fle_of_posFinite hmin hfreq hlo, units_le_of_fle_of_posFinite hfreq hmax hhi⟩

theorem posFinite_fmin {a b : F32} (ha : posFinite a = true) (hb : posFinite b = true) : posFinite (fmin a b) = true := by
  unfold fmin
  split <;> assumption

theorem flt_plusZero_of_posFinite {a : F32} (h : posFinite a = true) : flt plusZero a = true := by
  obtain ⟨hsign, hpos, -⟩ := (posFinite_iff a).1 h
  have hkey : orderKey a = fmag a := by simp [orderKey, hsign]
  rw [flt, hkey, not_isNaN_of_posFinite h, show orderKey plusZero = 0 by decide, show isNaN plusZero = false by decide]
  simpa using hpos

end Sys2Proof.Machine

namespace Sys2Proof
open Machine

/-- Settles O29: FREQ_HZ is between F_MIN and half the sample rate, where the reference COEF is positive. -/
theorem frequencyCoefficientIsPositiveAboveTwiceMaximum :
    Obligations.FrequencyCoefficientIsPositiveAboveTwiceMaximum := by
  refine ⟨fun cfg pn hvalid href hmax hmin hpn => ?_, rfl⟩
  obtain ⟨-, -, -, hclamp, -⟩ := domain_of_valid hvalid hpn
  obtain ⟨hlo, hhi⟩ := units_deriveFreqHz hvalid hpn
  obtain ⟨-, hclamped⟩ := deriveF_range hvalid hpn
  have hcoef : posFinite (coef cfg.coef (deriveFreqHz cfg pn) cfg.sampleRate) = true := by
    rw [href, coef, if_pos (coefDomain_deriveFreqHz hvalid hpn)]
    exact posFinite_coefRef (by omega) (by omega)
  refine ⟨?_, hclamped⟩
  rw [deriveF]
  exact flt_plusZero_of_posFinite (posFinite_fmin hcoef hclamp)

end Sys2Proof
end

section
/-! SUPPORT. What a setter does for a NaN, for another operand, and for the value its register holds (R120 to R123, R127, R129,
R131). Settles O16, O17, O18, O19 and O20. -/

namespace Sys2Proof.Machine

/-- The setters are `setParameter` with the write of their register (R120). -/
theorem exec_setters (p : F32) (s : State) :
    exec (.setfreq p) s = .next (setParameter writeFreq p s) ∧ exec (.setq p) s = .next (setParameter writeQ p s) ∧
      exec (.setshape p) s = .next (setParameter writeShape p s) := ⟨rfl, rfl, rfl⟩

/-- A NaN is not written (R122). -/
theorem setParameter_of_isNaN (write : F32 → State → State) {p : F32} (h : isNaN p = true) (s : State) :
    setParameter write p s = s := by
  simp only [setParameter, (clampN_eq_none_iff p).2 h]

/-- Every other operand is clamped and written (R121). -/
theorem setParameter_of_not_isNaN (write : F32 → State → State) {p : F32} (h : isNaN p = false) (s : State) :
    setParameter write p s = write (if fle p plusZero then plusZero else if fle one p then one else p) s := by
  simp only [setParameter, clampN_of_not_isNaN h]

/-- An operand in [+0.0, 1.0] is written as it is (R121). -/
theorem setParameter_of_inUnit (write : F32 → State → State) {p : F32} (h : inUnit p = true) (s : State) :
    setParameter write p s = write p s := by
  simp only [setParameter, clampN_of_inUnit h]

/-- The registers SETFREQ writes, in terms of EXPMAP and COEF (R28, R29). -/
theorem writeFreq_eq (pn : F32) (s : State) :
    writeFreq pn s = { s with
      freqN := pn, freqHz := expmap s.cfg.expmap s.cfg.fMin s.cfg.fMax pn,
      f := fmin (coef s.cfg.coef (expmap s.cfg.expmap s.cfg.fMin s.cfg.fMax pn) s.cfg.sampleRate) s.cfg.fClamp } := by
  rw [writeFreq, deriveF, deriveFreqHz]

/-- The registers SETQ writes, in terms of EXPMAP and one division (R30, R31). -/
theorem writeQ_eq (pn : F32) (s : State) :
    writeQ pn s = { s with
      qN := pn, q := expmap s.cfg.expmap s.cfg.qMin s.cfg.qMax pn,
      damp := fmax (fdiv s.cfg.denormalMode one (expmap s.cfg.expmap s.cfg.qMin s.cfg.qMax pn)) s.cfg.dampFloor } := by
  rw [writeQ, deriveDamp, deriveQ]

/-- Writing back the FREQ_N held by a state whose FREQ_HZ and F are derived from it changes nothing (R32). -/
theorem writeFreq_self {s : State} (hfreqHz : s.freqHz = deriveFreqHz s.cfg s.freqN) (hf : s.f = deriveF s.cfg s.freqN) :
    writeFreq s.freqN s = s := by
  rw [writeFreq, ← hfreqHz, ← hf]

/-- Writing back the Q_N held by a state whose Q and DAMP are derived from it changes nothing (R32). -/
theorem writeQ_self {s : State} (hq : s.q = deriveQ s.cfg s.qN) (hdamp : s.damp = deriveDamp s.cfg s.qN) :
    writeQ s.qN s = s := by
  rw [writeQ, ← hq, ← hdamp]

end Sys2Proof.Machine

namespace Sys2Proof
open Machine

/-- Settles O16: the clamped operand is written with FREQ_HZ and F computed from it. -/
theorem setfreqWritesFrequency : Obligations.SetfreqWritesFrequency := by
  intro p s hp pn fhz
  obtain ⟨hexec, -, -⟩ := exec_setters p s
  rw [hexec, setParameter_of_not_isNaN _ hp, writeFreq_eq]

/-- Settles O17: the clamped operand is written with Q and DAMP computed from it. -/
theorem setqWritesDamping : Obligations.SetqWritesDamping := by
  intro p s hp pn q
  obtain ⟨-, hexec, -⟩ := exec_setters p s
  rw [hexec, setParameter_of_not_isNaN _ hp, writeQ_eq]

/-- Settles O18: the clamped operand is written, and nothing is derived from it. -/
theorem setshapeWritesShape : Obligations.SetshapeWritesShape := by
  intro p s hp
  obtain ⟨-, -, hexec⟩ := exec_setters p s
  rw [hexec, setParameter_of_not_isNaN _ hp, writeShape]

/-- Settles O19: clamping a NaN answers nothing to write, whichever the register. -/
theorem nanParameterWriteIsIgnored : Obligations.NaNParameterWriteIsIgnored := by
  intro p s hp
  simpa only [setParameter_of_isNaN _ hp] using exec_setters p s

/-- Settles O20: the values held are their own clamps, and the registers derived from them are up to date. -/
theorem setterWithHeldValueIsIdle : Obligations.SetterWithHeldValueIsIdle := by
  rintro s ⟨-, -, -, -, hfreqN, hqN, hshape, hfreqHz, hf, hq, hdamp, -⟩
  obtain ⟨hexecFreq, -, -⟩ := exec_setters s.freqN s
  obtain ⟨-, hexecQ, -⟩ := exec_setters s.qN s
  obtain ⟨-, -, hexecShape⟩ := exec_setters s.shape s
  refine ⟨?_, ?_, ?_⟩
  · rw [hexecFreq, setParameter_of_inUnit _ hfreqN, writeFreq_self hfreqHz hf]
  · rw [hexecQ, setParameter_of_inUnit _ hqN, writeQ_self hq hdamp]
  · rw [hexecShape, setParameter_of_inUnit _ hshape, writeShape]

end Sys2Proof
end

section
/-! SUPPORT. 1.0/Q falls as Q rises, in both modes (R13, R16), so the damping floor does not act for a Q up to 100 (R128).
Settles O21. -/

namespace Sys2Proof.Machine

/-- The reciprocal of a finite value of sign 0: the rounded quotient, or +Inf for a zero (R13). -/
theorem div32_one {q : F32} (hs : fsign q = false) (hf : isFinite q = true) :
    fsign (div32 one q) = false ∧
      fmag (div32 one q) = if fmag q = 0 then 0x7F800000 else roundMag (units one * 2 ^ 149) (units q) := by
  by_cases h0 : fmag q = 0
  · rw [div32_by_zero rfl h0, if_neg (by decide), hs, if_pos h0]
    exact ⟨rfl, rfl⟩
  · rw [div32_of_finite rfl hf h0, hs, if_neg h0]
    exact ⟨fsign_pack _ (roundMag_lt _ _), fmag_pack _ (roundMag_lt _ _)⟩

theorem units_pos_of_posFinite {a : F32} (h : posFinite a = true) : 0 < units a := by
  obtain ⟨-, hmag, -⟩ := (posFinite_iff a).1 h
  exact Nat.pos_of_ne_zero fun h0 => hmag.ne' ((units_eq_zero_iff a).1 h0)

/-- The reciprocal does not rise with the magnitude, down to that of zero, whose reciprocal is +Inf. -/
theorem fmag_div32_one_antitone {q b : F32} (hs : fsign q = false) (hb : posFinite b = true) (h : fmag q ≤ fmag b) :
    fmag (div32 one b) ≤ fmag (div32 one q) := by
  obtain ⟨sb, hbpos, hbfin⟩ := (posFinite_iff b).1 hb
  obtain ⟨-, hdivb⟩ := div32_one sb ((isFinite_iff b).2 hbfin)
  obtain ⟨-, hdivq⟩ := div32_one hs ((isFinite_iff q).2 (by omega))
  rw [hdivb, hdivq, if_neg hbpos.ne']
  split
  · exact roundMag_le _ _
  · rename_i h0
    have hq : 0 < units q := Nat.pos_of_ne_zero fun hu => h0 ((units_eq_zero_iff q).1 hu)
    exact roundMag_mono (units_pos_of_posFinite hb) hq (Nat.mul_le_mul_left _ (unitsOfMag_le h))

/-- A magnitude beyond the subnormals is not flushed (R16). -/
theorem flushSubnormal_of_le (m : DenormalMode) {a : F32} (h : 2 ^ 23 ≤ fmag a) : flushSubnormal m a = a := by
  cases m with
  | ieee => rfl
  | ftzDaz =>
    have hns : isSubnormal a = false := by
      simp only [isSubnormal, Bool.and_eq_false_iff, decide_eq_false_iff_not, not_lt]
      exact .inr h
    simp [flushSubnormal, hns]

/-- Up to a bound `b` with a reciprocal that is not subnormal, `1.0 / q` is at least that reciprocal, in both modes: a `q` that
is read as a zero has the reciprocal +Inf (R16, R128). -/
theorem fle_fdiv_one (m : DenormalMode) {q b : F32} (hq : posFinite q = true) (hb : posFinite b = true) (h : fle q b = true)
    (hnormal : 2 ^ 23 ≤ fmag (div32 one b)) : fle (div32 one b) (fdiv m one q) = true := by
  obtain ⟨sq, -, hqfin⟩ := (posFinite_iff q).1 hq
  obtain ⟨sb, -, hbfin⟩ := (posFinite_iff b).1 hb
  rw [fle_of_nonneg sq sb ((isFinite_iff q).2 hqfin) ((isFinite_iff b).2 hbfin), decide_eq_true_eq] at h
  have sflushed : fsign (flushSubnormal m q) = false := by rw [fsign_flushSubnormal, sq]
  have hfinite : isFinite (flushSubnormal m q) = true := by rw [isFinite_flushSubnormal, isFinite_iff]; exact hqfin
  have hle := fmag_div32_one_antitone sflushed hb ((fmag_flushSubnormal_le m q).trans h)
  obtain ⟨sdiv, hdiv⟩ := div32_one sflushed hfinite
  obtain ⟨sdivb, -⟩ := div32_one sb ((isFinite_iff b).2 hbfin)
  have hresult : fdiv m one q = div32 one (flushSubnormal m q) := by
    rw [fdiv, underMode, flushSubnormal_of_le m (a := one) (by decide), flushSubnormal_of_le m (hnormal.trans hle)]
  rw [hresult]
  refine fle_of_fmag_le sdivb sdiv hle ?_
  rw [hdiv]
  split
  · exact le_rfl
  · exact roundMag_le _ _

/-- A value between the bounds of EXPMAP is positive and finite (R124). -/
theorem posFinite_of_expmapDomain {lo hi p a : F32} (h : expmapDomain lo hi p = true) (hlo : fle lo a = true)
    (hhi : fle a hi = true) : posFinite a = true := by
  simp only [expmapDomain, Bool.and_eq_true] at h
  obtain ⟨⟨⟨hmin, hmax⟩, -⟩, -⟩ := h
  exact posFinite_of_fle hmin hmax hlo hhi

/-- Q of a valid configuration is positive and finite (R30). -/
theorem posFinite_deriveQ {c : Config} (hc : c.valid = true) {qN : F32} (hqN : inUnit qN = true) :
    posFinite (deriveQ c qN) = true := by
  obtain ⟨-, hdomain, -⟩ := domain_of_valid hc hqN
  obtain ⟨hlo, hhi⟩ := fle_deriveQ hc hqN
  exact posFinite_of_expmapDomain hdomain hlo hhi

/-- With Q_MAX at most `b`, 1.0/Q is at least the reciprocal of `b` (R128). -/
theorem fle_fdiv_one_deriveQ {c : Config} (hc : c.valid = true) {qN : F32} (hqN : inUnit qN = true) {b : F32}
    (hb : posFinite b = true) (hmax : fle c.qMax b = true) (hnormal : 2 ^ 23 ≤ fmag (div32 one b)) :
    fle (div32 one b) (fdiv c.denormalMode one (deriveQ c qN)) = true := by
  obtain ⟨-, hhi⟩ := fle_deriveQ hc hqN
  exact fle_fdiv_one _ (posFinite_deriveQ hc hqN) hb (fle_trans hhi hmax) hnormal

/-- The reciprocal of 100 is the default DAMP_FLOOR. -/
theorem div32_one_hundred : div32 one 0x42C80000#32 = 0x3C23D70A#32 := by decide +kernel

/-- The reciprocal of 20 is 0.05. -/
theorem div32_one_twenty : div32 one 0x41A00000#32 = 0x3D4CCCCD#32 := by decide +kernel

end Sys2Proof.Machine

namespace Sys2Proof
open Machine

/-- Settles O21: 1.0/Q falls as Q rises, the floor is the reciprocal of 100, and 0.05 is that of 20. -/
theorem dampingFloorInertUpToHundred : Obligations.DampingFloorInertUpToHundred := by
  refine ⟨fun p s hp => ⟨_, setqWritesDamping p s hp, rfl⟩, rfl, by rw [reset_cfg]; decide,
    fun cfg qN hvalid hfloor hmax hqN => ?_, rfl, fun cfg qN hvalid hmax hqN => ?_⟩
  · have hle := fle_fdiv_one_deriveQ hvalid hqN rfl hmax (by rw [div32_one_hundred]; decide)
    rw [div32_one_hundred, ← hfloor] at hle
    rw [fmax, if_pos hle]
  · rw [← div32_one_twenty]
    exact fle_fdiv_one_deriveQ hvalid hqN rfl hmax (by rw [div32_one_twenty]; decide)

end Sys2Proof
end

section
/-! SUPPORT. EXPMAP and COEF against the real functions of R124 and R125. Settles O23, O24, O25, O26 and O27. -/

namespace Sys2Proof.Machine

theorem expmap_reference {lo hi p : F32} (h : expmapDomain lo hi p = true) : expmap .reference lo hi p = expmapRef lo hi p :=
  if_pos h

theorem coef_reference {fhz sr : F32} (h : coefDomain fhz sr = true) : coef .reference fhz sr = coefRef fhz sr := if_pos h

/-- EXPMAP's exponent is in [+0.0, 1.0] (R124). -/
theorem inUnit_of_expmapDomain {lo hi p : F32} (h : expmapDomain lo hi p = true) : inUnit p = true := by
  simp only [expmapDomain, Bool.and_eq_true] at h
  obtain ⟨-, hp⟩ := h
  exact hp

/-- The expression of R124 on the values is the exact value in units, over 2^149. -/
theorem expmapExact_eq {lo hi p : F32} (h : expmapDomain lo hi p = true) :
    (valueOf lo : ℝ) * ((valueOf hi : ℝ) / (valueOf lo : ℝ)) ^ ((valueOf p : ℚ) : ℝ) = expmapExact lo hi p / 2 ^ 149 := by
  obtain ⟨sp, -⟩ := (inUnit_iff p).1 (inUnit_of_expmapDomain h)
  simp only [expmapDomain, Bool.and_eq_true] at h
  obtain ⟨⟨⟨hlo, hhi⟩, -⟩, -⟩ := h
  obtain ⟨slo, -, -⟩ := (posFinite_iff lo).1 hlo
  obtain ⟨shi, -, -⟩ := (posFinite_iff hi).1 hhi
  rw [valueOf_of_pos slo, valueOf_of_pos shi, valueOf_of_pos sp, div_div_div_cancel_right₀ (by positivity), div_mul_eq_mul_div]
  rfl

/-- The reference EXPMAP is the exact value rounded once (R124). -/
theorem roundsTo_expmapRef {lo hi p : F32} (h : expmapDomain lo hi p = true) :
    RoundsTo (expmapExact lo hi p / 2 ^ 149) (expmapRef lo hi p) := by
  obtain ⟨hsign, hmag⟩ := roundsToMag_expmapRef h
  obtain ⟨hlo, -⟩ := expmapExact_bounds h
  have hround := roundsTo_of_mag hmag ((Nat.cast_nonneg _).trans hlo)
  rwa [← hsign, pack_sign_mag] at hround

/-- An angle of at most a quarter turn is at most 1/2 of a half turn. -/
theorem div_le_half {r b : Nat} (hr : 2 * r ≤ b) : (r : ℝ) / b ≤ 1 / 2 := by
  have hrR : 2 * (r : ℝ) ≤ b := by exact_mod_cast hr
  exact div_le_of_le_mul₀ (by positivity) (by norm_num) (by linarith)

/-- An angle of at most a quarter turn has a sine of sign 0. -/
theorem sin_nonneg_of_quarter {r b : Nat} (hr : 2 * r ≤ b) : 0 ≤ Real.sin (Real.pi * ((r : ℝ) / b)) := by
  have hle : (r : ℝ) / b ≤ 1 := (div_le_half hr).trans (by norm_num)
  exact Real.sin_nonneg_of_nonneg_of_le_pi (by positivity) (mul_le_of_le_one_right Real.pi_pos.le hle)

/-- Where the folded angle is zero, the whole angle is a number of half turns and its sine is zero (R125). -/
theorem sin_of_quarterPart_eq_zero {fhz sr : F32} (hsr : 0 < units sr) (h : quarterPart fhz sr = 0) :
    Real.sin (Real.pi * (units fhz : ℝ) / units sr) = 0 := by
  have hsrR : (units sr : ℝ) ≠ 0 := by exact_mod_cast hsr.ne'
  have hmod : units fhz % units sr = 0 := by
    have hlt := Nat.mod_lt (turnPart fhz sr) hsr
    rw [← Nat.mod_mod_of_dvd (units fhz) (Nat.dvd_mul_left (units sr) 2), ← turnPart]
    unfold quarterPart foldQuarter at h
    split at h <;> omega
  obtain ⟨n, hn⟩ := Nat.dvd_of_mod_eq_zero hmod
  rw [hn, Nat.cast_mul, mul_left_comm, mul_div_cancel_left₀ _ hsrR, mul_comm]
  exact Real.sin_nat_mul_pi n

/-- Where the folded angle is not zero, the sine is that of the folded angle with the sign of the half turn (R125). -/
theorem sin_of_quarterPart_ne_zero {fhz sr : F32} (hsr : 0 < units sr) (h : quarterPart fhz sr ≠ 0) :
    Real.sin (Real.pi * (units fhz : ℝ) / units sr) =
      (if sineNegative fhz sr then -1 else 1) * Real.sin (Real.pi * ((quarterPart fhz sr : ℝ) / units sr)) := by
  rcases sin_quarterPart (units fhz) (units sr) hsr with hsin | hturn
  · exact hsin.trans (congrArg (· * _) (if_congr decide_eq_true_iff.symm rfl rfl))
  · refine absurd ?_ h
    rw [quarterPart, turnPart, hturn, Nat.mod_self, foldQuarter, if_neg (by omega)]

/-- The reference COEF is twice the exact sine rounded once (R125). -/
theorem roundsTo_coefRef {fhz sr : F32} (hsr : 0 < units sr) :
    RoundsTo (2 * Real.sin (Real.pi * (units fhz : ℝ) / units sr)) (coefRef fhz sr) := by
  have hquarter := quarterPart_le fhz sr hsr
  have hnonneg := sin_nonneg_of_quarter hquarter
  rw [coefRef]
  split
  · rename_i h0
    have hzero : RoundsToMag 0 0 := by simpa [unitsOfMag] using roundsToMag_unitsOfMag (Nat.zero_le 0x7F800000)
    rw [sin_of_quarterPart_eq_zero hsr h0, mul_zero]
    exact roundsTo_pack_mag (s := false) hzero (by simp) (fun h => absurd h (lt_irrefl _)) fun _ => rfl
  · rename_i h0
    rw [sin_of_quarterPart_ne_zero hsr h0]
    have hmag := roundsToMag_sineMag hsr hquarter
    generalize Real.sin (Real.pi * ((quarterPart fhz sr : ℝ) / units sr)) = y at hnonneg hmag ⊢
    have habs : ∀ x : ℝ, |x| = y → |2 * x| = 2 ^ 150 * y / 2 ^ 149 := by
      rintro x rfl
      rw [abs_mul, abs_two]
      ring
    cases sineNegative fhz sr with
    | false =>
      rw [if_neg Bool.false_ne_true, one_mul]
      exact roundsTo_pack_mag hmag (habs y (abs_of_nonneg hnonneg)) (fun h => by linarith) fun _ => rfl
    | true =>
      rw [if_pos rfl, neg_one_mul]
      exact roundsTo_pack_mag hmag (habs (-y) (by rw [abs_neg, abs_of_nonneg hnonneg])) (fun _ => rfl) fun h => by linarith

/-- A magnitude up to that of 2.0 is that of a finite value in [-2, 2]. -/
theorem finite_within_two {a : F32} (h : fmag a ≤ 0x40000000) : isFinite a = true ∧ |valueOf a| ≤ 2 := by
  refine ⟨(isFinite_iff a).2 (by omega), ?_⟩
  have hunits : units a ≤ 2 ^ 150 := unitsOfMag_le h
  have habs : |(valueOf a : ℝ)| ≤ 2 := by
    rw [abs_valueOf_eq_units, div_le_iff₀ (by positivity)]
    exact_mod_cast hunits
  exact_mod_cast habs

end Sys2Proof.Machine

namespace Sys2Proof
open Machine

/-- Settles O23: at its bounds every EXPMAP is a function with the properties R124 names. -/
theorem expmapKeepsEndPointsAndRange : Obligations.ExpmapKeepsEndPointsAndRange := by
  intro fn lo hi p h
  obtain ⟨g, ⟨hzero, hone, hmono⟩, hg⟩ := expmap_of_domain fn h
  obtain ⟨hlo, hhi⟩ := fle_expmap fn h
  have hp := inUnit_of_expmapDomain h
  refine ⟨(hg _ inUnit_plusZero).trans hzero, (hg _ inUnit_one).trans hone, hlo, hhi, fun k r _ hr hle => ?_⟩
  rw [hg p hp, hg r hr]
  exact hmono p r hp hr hle

/-- Settles O24: the model's comparisons decide the rounding of the exact value, for every operand. -/
theorem expmapReferenceIsCorrectlyRounded : Obligations.ExpmapReferenceIsCorrectlyRounded := by
  intro lo hi p h
  rw [expmapExact_eq h, expmap_reference h]
  exact roundsTo_expmapRef h

/-- Settles O25: the exact value does not fall as `p` rises, and rounding is monotone. -/
theorem expmapReferenceIsMonotone : Obligations.ExpmapReferenceIsMonotone := by
  intro lo hi p r hp hr hle
  obtain ⟨-, -, hmono⟩ := expmapLaw_expmapRef hp
  rw [expmap_reference hp, expmap_reference hr]
  exact hmono p r (inUnit_of_expmapDomain hp) (inUnit_of_expmapDomain hr) hle

/-- Settles O26: the angle is folded into the first quarter turn, where the model's comparisons decide the rounding. -/
theorem coefReferenceIsCorrectlyRounded : Obligations.CoefReferenceIsCorrectlyRounded := by
  intro fhz sr h
  obtain ⟨-, hfhz, hsr, hvalue⟩ := units_of_coefDomain h
  have hangle : Real.pi * (valueOf fhz : ℝ) / (valueOf sr : ℝ) = Real.pi * (units fhz : ℝ) / units sr := by
    rw [hfhz, hvalue, ← mul_div_assoc, div_div_div_cancel_right₀ (by positivity)]
  rw [hangle, coef_reference h]
  exact roundsTo_coefRef hsr

/-- Settles O27: the magnitude of every COEF's result is at most that of 2.0. -/
theorem coefIsFiniteWithinTwo : Obligations.CoefIsFiniteWithinTwo := fun fn _ _ h => finite_within_two (fmag_coef_le fn h)

end Sys2Proof
end

section
/-! SUPPORT. COEF up to half the sample rate: the angle is in the first quarter turn, where the sine rises and is at least 1/2 from
a sixth of the rate on (R125, R130). Settles O28 and O30. -/

namespace Sys2Proof.Machine

/-- Up to half the sample rate the angle is in the first quarter turn, and nothing is folded (R125). -/
theorem coefRef_up_to_half_rate {fhz sr : F32} (h0 : 0 < units fhz) (h : 2 * units fhz ≤ units sr) :
    coefRef fhz sr = pack false (sineMag (units fhz) (units sr)) := by
  have hturn : turnPart fhz sr = units fhz := Nat.mod_eq_of_lt (by omega)
  have hquarter : quarterPart fhz sr = units fhz := by
    rw [quarterPart, hturn, Nat.mod_eq_of_lt (by omega), foldQuarter, if_neg (by omega)]
  have hsign : sineNegative fhz sr = false := by
    rw [sineNegative, hturn, decide_eq_false_iff_not]
    omega
  rw [coefRef, hquarter, hsign, if_neg h0.ne']

/-- There the reference COEF has sign 0, and the magnitude of the rounded sine, at most that of 2.0. -/
theorem parts_coefRef {fhz sr : F32} (h0 : 0 < units fhz) (h : 2 * units fhz ≤ units sr) :
    fsign (coefRef fhz sr) = false ∧ fmag (coefRef fhz sr) = sineMag (units fhz) (units sr) ∧
      sineMag (units fhz) (units sr) ≤ 0x40000000 := by
  have hle : sineMag (units fhz) (units sr) ≤ 0x40000000 := sineMag_le (by omega) h
  rw [coefRef_up_to_half_rate h0 h, fsign_pack _ (by omega), fmag_pack _ (by omega)]
  exact ⟨rfl, rfl, hle⟩

/-- The sine rises with an angle of at most a quarter turn, in half turns. -/
theorem sin_mono_of_quarter {x y : ℝ} (h0 : 0 ≤ x) (hxy : x ≤ y) (hy : y ≤ 1 / 2) :
    Real.sin (Real.pi * x) ≤ Real.sin (Real.pi * y) := by
  have hpi := Real.pi_pos
  exact Real.sin_le_sin_of_le_of_le_pi_div_two (by nlinarith) (by nlinarith) (by gcongr)

/-- The rounded sine rises with an angle of at most a quarter turn (R130). -/
theorem sineMag_mono {r r' b : Nat} (hb : 0 < b) (hr' : 2 * r' ≤ b) (h : r ≤ r') : sineMag r b ≤ sineMag r' b := by
  have hsin : Real.sin (Real.pi * ((r : ℝ) / b)) ≤ Real.sin (Real.pi * ((r' : ℝ) / b)) :=
    sin_mono_of_quarter (by positivity) (by gcongr) (div_le_half hr')
  exact (roundsToMag_sineMag hb (by omega)).mono (roundsToMag_sineMag hb hr') (by gcongr)

/-- From a sixth of a half turn to a quarter turn, twice the sine rounds to at least 1.0 (R130). -/
theorem one_le_sineMag {r b : Nat} (hb : 0 < b) (hsixth : b ≤ 6 * r) (hr : 2 * r ≤ b) : 0x3F800000 ≤ sineMag r b := by
  have hbR : (0 : ℝ) < b := by exact_mod_cast hb
  have hangle : (1 : ℝ) / 6 ≤ r / b := by
    rw [div_le_div_iff₀ (by norm_num) hbR]
    exact_mod_cast (by omega : 1 * b ≤ r * 6)
  have hsin : (1 : ℝ) / 2 ≤ Real.sin (Real.pi * (r / b)) := by
    calc (1 : ℝ) / 2 = Real.sin (Real.pi * (1 / 6)) := by rw [mul_one_div, Real.sin_pi_div_six]
      _ ≤ Real.sin (Real.pi * (r / b)) := sin_mono_of_quarter (by norm_num) hangle (div_le_half hr)
  refine (roundsToMag_unitsOfMag (by norm_num)).mono (roundsToMag_sineMag hb hr) ?_
  rw [show unitsOfMag 0x3F800000 = 2 ^ 149 by decide]
  push_cast
  linarith

/-- The reference COEF is at least 1.0 from a sixth to half of the sample rate (R130). -/
theorem one_fle_coefRef {fhz sr : F32} (hsr : 0 < units sr) (hsixth : units sr ≤ 6 * units fhz)
    (h : 2 * units fhz ≤ units sr) : fle one (coefRef fhz sr) = true := by
  obtain ⟨hsign, hmag, hle⟩ := parts_coefRef (by omega) h
  exact fle_of_fmag_le rfl hsign (hmag ▸ one_le_sineMag hsr hsixth h) (by omega)

/-- The reference COEF does not fall as the frequency rises up to half of the sample rate (R130). -/
theorem fle_coefRef {fhz fhz' sr : F32} (h0 : 0 < units fhz) (hle : units fhz ≤ units fhz')
    (h : 2 * units fhz' ≤ units sr) : fle (coefRef fhz sr) (coefRef fhz' sr) = true := by
  obtain ⟨hsign, hmag, -⟩ := parts_coefRef h0 (show 2 * units fhz ≤ units sr by omega)
  obtain ⟨hsign', hmag', hle'⟩ := parts_coefRef (show 0 < units fhz' by omega) h
  refine fle_of_fmag_le hsign hsign' ?_ (by omega)
  rw [hmag, hmag']
  exact sineMag_mono (by omega) h hle

theorem fmin_of_fle {a b : F32} (h : fle a b = true) : fmin a b = a := if_pos h

/-- `min` with a fixed second operand rises with the first (R13). -/
theorem fle_fmin_of_fle {a b c : F32} (hc : isNaN c = false) (h : fle a b = true) : fle (fmin a c) (fmin b c) = true := by
  obtain ⟨ha, -⟩ := not_isNaN_of_fle h
  by_cases hbc : fle b c = true
  · rwa [fmin_of_fle hbc, fmin_of_fle (fle_trans h hbc)]
  · rw [show fmin b c = c from if_neg hbc]
    exact fle_fmin_right hc

/-- Positive finite values that are each at most the other are the same word. -/
theorem fle_antisymm_of_posFinite {a b : F32} (hb : posFinite b = true) (hba : fle b a = true) (hab : fle a b = true) :
    a = b := by
  obtain ⟨sa, -, fa⟩ := (posFinite_iff a).1 (posFinite_of_fle hb hb hba hab)
  obtain ⟨sb, -, fb⟩ := (posFinite_iff b).1 hb
  rw [fle_of_nonneg sb sa ((isFinite_iff b).2 fb) ((isFinite_iff a).2 fa), decide_eq_true_eq] at hba
  rw [fle_of_nonneg sa sb ((isFinite_iff a).2 fa) ((isFinite_iff b).2 fb), decide_eq_true_eq] at hab
  exact ext_sign_mag (sa.trans sb.symm) (le_antisymm hab hba)

/-- `min(a, b)` is `b` where `b <= a` (R13). -/
theorem fmin_eq_right_of_fle {a b : F32} (hb : posFinite b = true) (h : fle b a = true) : fmin a b = b := by
  unfold fmin
  split
  · rename_i hab
    exact fle_antisymm_of_posFinite hb h hab
  · rfl

/-- FREQ_HZ of a valid configuration is positive and finite (R28). -/
theorem posFinite_deriveFreqHz {c : Config} (hc : c.valid = true) {pn : F32} (hpn : inUnit pn = true) :
    posFinite (deriveFreqHz c pn) = true := by
  obtain ⟨hdomain, -⟩ := domain_of_valid hc hpn
  obtain ⟨hlo, hhi⟩ := fle_deriveFreqHz hc hpn
  exact posFinite_of_expmapDomain hdomain hlo hhi

/-- F with the reference COEF (R29, R126). -/
theorem deriveF_of_reference {c : Config} (hc : c.valid = true) (href : c.coef = .reference) {pn : F32}
    (hpn : inUnit pn = true) : deriveF c pn = fmin (coefRef (deriveFreqHz c pn) c.sampleRate) c.fClamp := by
  rw [deriveF, href, coef_reference (coefDomain_deriveFreqHz hc hpn)]

/-- With the reference EXPMAP, FREQ_HZ does not fall as FREQ_N rises, in units (R124). -/
theorem units_deriveFreqHz_mono {c : Config} (hc : c.valid = true) (href : c.expmap = .reference) {p r : F32}
    (hp : inUnit p = true) (hr : inUnit r = true) (h : fle p r = true) :
    units (deriveFreqHz c p) ≤ units (deriveFreqHz c r) := by
  obtain ⟨hdomain, -⟩ := domain_of_valid hc hp
  obtain ⟨hdomain', -⟩ := domain_of_valid hc hr
  refine units_le_of_fle_of_posFinite (posFinite_deriveFreqHz hc hp) (posFinite_deriveFreqHz hc hr) ?_
  rw [deriveFreqHz, deriveFreqHz, href]
  exact expmapReferenceIsMonotone _ _ p r hdomain hdomain' h

end Sys2Proof.Machine

namespace Sys2Proof
open Machine

/-- Settles O28: COEF is at least 1.0 there, and the clamp is 1.0. -/
theorem frequencyClampActiveFromSixthOfRate : Obligations.FrequencyClampActiveFromSixthOfRate := by
  intro cfg pn hvalid href hclamp hpn hsixth hhalf
  obtain ⟨-, -, hsr, -⟩ := units_of_coefDomain (coefDomain_deriveFreqHz hvalid hpn)
  rw [deriveF_of_reference hvalid href hpn, hclamp]
  exact fmin_eq_right_of_fle rfl (one_fle_coefRef hsr hsixth hhalf)

/-- Settles O30: FREQ_HZ rises with FREQ_N, COEF with FREQ_HZ below half the sample rate, and the clamp keeps the order. -/
theorem frequencyCoefficientRisesWithFrequency : Obligations.FrequencyCoefficientRisesWithFrequency := by
  intro cfg p r hvalid hexpmap hcoef hrate hp hr hle
  obtain ⟨-, -, -, hclamp, -⟩ := domain_of_valid hvalid hp
  obtain ⟨-, hmax⟩ := units_deriveFreqHz hvalid hr
  have hpos := units_pos_of_posFinite (posFinite_deriveFreqHz hvalid hp)
  rw [deriveF_of_reference hvalid hcoef hp, deriveF_of_reference hvalid hcoef hr]
  exact fle_fmin_of_fle (not_isNaN_of_posFinite hclamp)
    (fle_coefRef hpos (units_deriveFreqHz_mono hvalid hexpmap hp hr hle) (by omega))

end Sys2Proof
end

section
/-! SUPPORT. RESET, the silence after it, and illegal words (R140 to R142). Settles O36, O37 and O38. -/

namespace Sys2Proof.Machine

/-- A valid configuration has its SHAPE_SPLIT at 0.5 (R8). -/
theorem shapeSplit_of_valid {c : Config} (h : c.valid = true) : c.shapeSplit = half := by
  simp only [Config.valid, Bool.and_eq_true, decide_eq_true_eq] at h
  obtain ⟨⟨⟨⟨-, hsplit⟩, -⟩, -⟩, -⟩ := h
  exact hsplit

end Sys2Proof.Machine

namespace Sys2Proof
open Machine

/-- Settles O36: RESET writes three zeros to the signal registers, and that is its whole meaning (R140). -/
theorem resetZeroesIntegratorsOnly : Obligations.ResetZeroesIntegratorsOnly := fun _ _ => rfl

/-- Settles O37: RESET leaves zeros, and it keeps the SHAPE and SHAPE_SPLIT under which PROCESS of zeros is silent. -/
theorem resetThenZeroInputIsSilent : Obligations.ResetThenZeroInputIsSilent := by
  rintro data data' s ⟨hvalid, -, -, -, -, -, hshape, -⟩
  exact ⟨_, resetZeroesIntegratorsOnly data s, resetZeroesIntegratorsOnly data' _,
    zeroInputOnZeroStateIsSilent _ rfl rfl rfl hshape (shapeSplit_of_valid hvalid)⟩

/-- Settles O38: an illegal word does not decode, and a word that does not decode is only consumed. -/
theorem illegalWordIsNoOp : Obligations.IllegalWordIsNoOp := by
  intro s w rest hinbox hillegal
  obtain ⟨e, hdecode⟩ := decode_error_of_illegal hillegal
  exact step_of_illegal hinbox hdecode

end Sys2Proof
end

section
/-! Every step answers a next state, and a block with nothing delivered waits (R150, R163, R181). Settles O45 and O46. -/

namespace Sys2Proof
open Machine

/-- Settles O45: waiting, a command's execution and the removal of an illegal word each answer a next state
(`step_cases`, `exec_next`), so `step` is the total `nextState`. -/
theorem stepNeverStops : Obligations.StepNeverStops := fun s => ⟨nextState s, step_eq_next s⟩

/-- Settles O46: the step looks only for a whole word in the inbox, never at `partialWord`. -/
theorem waitingKeepsState : Obligations.WaitingKeepsState := fun _ => step_of_empty

end Sys2Proof
end

section
/-! SUPPORT. Construction (R180), and the command sequences of the host run to their end: the boot sequence (R183) and a note's life
(R182). Settles O1, O51 and O52. -/

namespace Sys2Proof.Machine

/-- Issuing commands appends their words to the stream, in order (R55). -/
theorem issueAll_eq (is : List Instr) (s : State) :
    issueAll is s = { s with inbox := s.inbox ++ is.map encode } := by
  induction is generalizing s with
  | nil => rw [List.map_nil, List.append_nil]; rfl
  | cons i is ih => rw [issueAll, ih, issueCommand_inbox, List.append_assoc]; rfl

/-- The effect of an encoded command is the command's execution (R55, R71). -/
theorem commandEffect_encode {i : Instr} {s t : State} (h : exec i s = .next t) : commandEffect s (encode i) = t :=
  commandEffect_of_decode (decode_encode i) h

/-- Commands issued to an idle block and run to their end have their effects, in issue order (R55). -/
theorem run_issueAll (is : List Instr) {s : State} (h : s.inbox = []) :
    core.run is.length (issueAll is s) =
      .next { is.foldl (fun t i => commandEffect t (encode i)) s with inbox := [] } := by
  have hinbox : (issueAll is s).inbox = is.map encode ++ [] := by rw [issueAll_eq, h, List.nil_append, List.append_nil]
  have hrun := run_eq_foldl_commandEffect (is.map encode) [] hinbox
  rwa [List.length_map, issueAll_eq, foldl_commandEffect_withInbox, List.foldl_map, ← issueAll_eq] at hrun

/-- A setter writes what `clampN` answers (R121). -/
theorem setParameter_of_clampN {write : F32 → State → State} {p pn : F32} (h : clampN p = some pn) (s : State) :
    setParameter write p s = write pn s := by
  rw [setParameter, h]

/-- Every operand that is no NaN has a clamp (R122). -/
theorem exists_clampN {p : F32} (h : isNaN p = false) : ∃ pn, clampN p = some pn := ⟨_, clampN_of_not_isNaN h⟩

/-- The effect of each setter's word, from the clamp of its operand (R120, R121). -/
theorem commandEffect_setters {p pn : F32} (h : clampN p = some pn) (s : State) :
    commandEffect s (encode (.setfreq p)) = writeFreq pn s ∧ commandEffect s (encode (.setq p)) = writeQ pn s ∧
      commandEffect s (encode (.setshape p)) = writeShape pn s := by
  obtain ⟨hfreq, hq, hshape⟩ := exec_setters p s
  rw [setParameter_of_clampN h] at hfreq hq hshape
  exact ⟨commandEffect_encode hfreq, commandEffect_encode hq, commandEffect_encode hshape⟩

/-- The boot sequence on an idle block is its three writes, in the order of R183. -/
theorem run_bootCommands {a b c an bn cn : F32} {s : State} (hinbox : s.inbox = []) (ha : clampN a = some an)
    (hb : clampN b = some bn) (hc : clampN c = some cn) :
    core.run 3 (issueAll (bootCommands a b c) s) =
      .next { writeShape cn (writeQ bn (writeFreq an s)) with inbox := [] } := by
  obtain ⟨hfreq, -, -⟩ := commandEffect_setters ha s
  obtain ⟨-, hq, -⟩ := commandEffect_setters hb (writeFreq an s)
  obtain ⟨-, -, hshape⟩ := commandEffect_setters hc (writeQ bn (writeFreq an s))
  have heffects : (bootCommands a b c).foldl (fun t i => commandEffect t (encode i)) s =
      writeShape cn (writeQ bn (writeFreq an s)) := by
    simp only [bootCommands, List.foldl_cons, List.foldl_nil, hfreq, hq, hshape]
  rw [← heffects]
  exact run_issueAll (bootCommands a b c) hinbox

/-- One RESET on an idle block zeroes the signal registers, and the stream is empty again (R140). -/
theorem run_reset (data : F32) {s : State} (h : s.inbox = []) :
    core.run 1 (issueAll [.reset data] s) = .next { s with low := plusZero, band := plusZero, high := plusZero } :=
  calc core.run 1 (issueAll [.reset data] s)
      = .next { commandEffect s (encode (.reset data)) with inbox := [] } := run_issueAll [.reset data] h
    _ = .next { s with low := plusZero, band := plusZero, high := plusZero, inbox := [] } := by
      rw [commandEffect_encode (resetZeroesIntegratorsOnly data s)]; rfl
    _ = .next { s with low := plusZero, band := plusZero, high := plusZero } := by rw [← h]

end Sys2Proof.Machine

namespace Sys2Proof
open Machine

/-- Settles O1: the fields of the construction, with the derived registers written out in terms of EXPMAP, COEF and one
division. -/
theorem constructionSetsPowerOnState : Obligations.ConstructionSetsPowerOnState := by
  intro cfg s
  have hfreqHz : s.freqHz = expmap cfg.expmap cfg.fMin cfg.fMax cfg.freqReset :=
    show deriveFreqHz cfg cfg.freqReset = _ by rw [deriveFreqHz]
  have hf : s.f = fmin (coef cfg.coef s.freqHz cfg.sampleRate) cfg.fClamp :=
    show deriveF cfg cfg.freqReset = _ by rw [deriveF]; rfl
  have hq : s.q = expmap cfg.expmap cfg.qMin cfg.qMax cfg.qReset :=
    show deriveQ cfg cfg.qReset = _ by rw [deriveQ]
  have hdamp : s.damp = fmax (fdiv cfg.denormalMode one s.q) cfg.dampFloor :=
    show deriveDamp cfg cfg.qReset = _ by rw [deriveDamp]; rfl
  exact ⟨rfl, rfl, rfl, rfl, rfl, rfl, hfreqHz, hf, hq, hdamp, rfl, rfl⟩

/-- Settles O51: each operand has a clamp, and each of the three writes leaves the registers of the other two. -/
theorem bootSequenceWritesParameters : Obligations.BootSequenceWritesParameters := by
  intro a b c s hinbox ha hb hc
  obtain ⟨an, han⟩ := exists_clampN ha
  obtain ⟨bn, hbn⟩ := exists_clampN hb
  obtain ⟨cn, hcn⟩ := exists_clampN hc
  rw [han, hbn, hcn]
  exact ⟨_, run_bootCommands hinbox han hbn hcn, rfl, rfl, rfl, rfl, rfl, rfl, rfl, rfl⟩

/-- Settles O52: note-on and force-stop each issue one RESET, and note-off issues nothing. -/
theorem noteOnClearsIntegrators : Obligations.NoteOnClearsIntegrators := by
  refine ⟨fun e s he hinbox => ?_, rfl⟩
  rcases he with rfl | rfl
  · exact run_reset 0#32 hinbox
  · exact run_reset 0#32 hinbox

end Sys2Proof
end
